-- ==== Sys2Proof/Word.lean ====
section
/-! DEFINITION. The widths the block works in (00_scope.md R7, R9, R10): bytes, 64-bit key and PRF words, 128-bit
identifiers, hexadecimal digits. Every value is unsigned. -/

namespace Sys2Proof

/-- A byte, a value of width 8 (R10). -/
abbrev Byte := BitVec 8

/-- A 64-bit word: a key word, a PRF working word, a PRF result, a millisecond count (R7). -/
abbrev Word64 := BitVec 64

/-- An identifier carried as the 128-bit value `ID = be(b)` of its 16 bytes (R41, R64). -/
abbrev Ident := BitVec 128

/-- The value of one hexadecimal digit (R74). -/
abbrev Nibble := BitVec 4

/-- The 3-bit operation-code field of a request (R60, R61). -/
abbrev OpCode := BitVec 3

end Sys2Proof
end

