-- ==== Sys2Proof/Config.lean ====
section
/-! DEFINITION. What is fixed for the life of a block: the two OPEN parameters of 00_scope.md R8 as a record a state
carries (assumption 1), and the fixed round counts of R7. -/

namespace Sys2Proof

/-- `VERSION_CHECK` (R123): what ENC and DEC do with a version marker that is not the expected one. -/
inductive VersionCheck where
  /-- `NONE`, the default: the operand is transformed whatever its version marker. -/
  | noCheck
  /-- `EITHER`: a marker that is neither 4 nor 7 is refused. -/
  | either
  /-- `EXACT`: ENC wants 7, DEC wants 4. -/
  | exact
  deriving DecidableEq, Repr

/-- The open parameters of R8: arguments of the model, unchanged by every operation and by reset (R25, R221). -/
structure Config where
  /-- `VERSION_CHECK`. -/
  versionCheck : VersionCheck
  /-- `MSG_MAX`, the longest message a request can carry; `none` is unbounded. -/
  msgMax : Option Nat
  deriving DecidableEq, Repr

/-- The defaults R8 names: `VERSION_CHECK = NONE`, `MSG_MAX` unbounded. -/
def Config.default : Config := { versionCheck := .noCheck, msgMax := none }

/-- The range R8 gives `MSG_MAX`: at least 12, or unbounded. -/
def Config.wf (c : Config) : Bool := c.msgMax.all (12 ≤ ·)

/-- Whether a message of `n` bytes can be put in a request at all (R109). -/
def Config.fits (c : Config) (n : Nat) : Bool := c.msgMax.all (n ≤ ·)

/-- `C_ROUNDS` (R7): compression rounds per message block. -/
def Config.cRounds : Nat := 2

/-- `D_ROUNDS` (R7): finalization rounds. -/
def Config.dRounds : Nat := 4

end Sys2Proof
end

