-- ==== Sys2Proof/Syntax.lean ====
section
/-! DEFINITION. The request record a host hands the block (30_encoding.md R60), the eight rows of the opcode map as the
constructors of `Instr` (R61, R63), and the response a request gets (R62, R191). -/

namespace Sys2Proof

/-- The request record `REQ` (R60). Every request has every field; an operation reads its own and ignores the rest
(R63). The lengths of `msg` and `text` are those of the lists. -/
structure Request where
  op   : OpCode
  k0   : Word64
  k1   : Word64
  id   : Ident
  msg  : List Byte
  text : List Byte
  deriving DecidableEq, Repr

/-- One constructor per row of spec/opcode_table.json, carrying exactly the fields that row's operation reads (R60). -/
inductive Instr where
  /-- `PRF` (R100). -/
  | prf (k0 k1 : Word64) (msg : List Byte)
  /-- `ENC` (R120). -/
  | enc (k0 k1 : Word64) (id : Ident)
  /-- `DEC` (R121). -/
  | dec (k0 k1 : Word64) (id : Ident)
  /-- `PARSE` (R140). -/
  | parse (text : List Byte)
  /-- `FMT` (R141). -/
  | fmt (id : Ident)
  /-- `GEN` (R160). -/
  | gen
  /-- The reserved code 0b110 (R63). -/
  | rsvd6
  /-- The reserved code 0b111 (R63). -/
  | rsvd7
  deriving DecidableEq, Repr

/-- The error results (R190, R191). -/
inductive ErrorCode where
  /-- `ParseError`: malformed canonical text (R192). -/
  | parseError
  /-- `UnexpectedVersionError`: the version check refused the operand (R193). -/
  | unexpectedVersionError
  /-- `IllegalOp`: a reserved operation code (R195). -/
  | illegalOp
  /-- `KeyFormatError`: set aside for host software; the block never answers it (R194). -/
  | keyFormatError
  deriving DecidableEq, Repr

/-- A response is the payload of its operation, or an error with nothing beside it (R62, R197). -/
inductive Response where
  /-- The payload of `PRF`. -/
  | prf (value : Word64)
  /-- The payload of `ENC`, `DEC`, `PARSE` and `GEN`. -/
  | id (value : Ident)
  /-- The payload of `FMT`. -/
  | text (value : List Byte)
  /-- A failed request: the code and no payload. -/
  | error (code : ErrorCode)
  deriving DecidableEq, Repr

/-- The response record `RSP` (R62). A payload field that is absent is `none`. -/
structure ResponseRecord where
  status : BitVec 3
  prf    : Option Word64
  id     : Option Ident
  text   : Option (List Byte)
  deriving DecidableEq, Repr

end Sys2Proof
end

