-- ==== Sys2Proof/WellFormed.lean ====
section
/-! DEFINITION. What a request can carry. Every field of every instruction but one is a bit vector of the record's own
width, so the one check is the length of a PRF message against `MSG_MAX` (00_scope.md R8, 40_prf.md R109). -/

namespace Sys2Proof

/-- An instruction a request can carry under the parameters `c`. -/
def Instr.wf (c : Config) : Instr → Bool
  | .prf _ _ msg => c.fits msg.length
  | .enc _ _ _ => true
  | .dec _ _ _ => true
  | .parse _ => true
  | .fmt _ => true
  | .gen => true
  | .rsvd6 => true
  | .rsvd7 => true

/-- A request record that can be issued at all: a message longer than `MSG_MAX` cannot be put in one (R109). -/
def Request.carriable (c : Config) (r : Request) : Bool := c.fits r.msg.length

end Sys2Proof
end

