-- ==== Sys2Proof/Decode.lean ====
section
/-! DEFINITION. From a request record to the instruction it selects and back (30_encoding.md R60, R61, R63), and the
opcode table's words. Decoding is total: all eight codes select a row, and the one record with no instruction (a PRF
message longer than `MSG_MAX`, which no request can carry) is rejected by name. -/

namespace Sys2Proof

/-- Why a record has no instruction. -/
inductive DecodeError where
  /-- The PRF message is longer than `MSG_MAX` (R109). -/
  | messageTooLong
  deriving DecidableEq, Repr

/-- The operation code of each row (R61, R63). -/
def Instr.opcode : Instr → OpCode
  | .prf _ _ _ => 0b000#3
  | .enc _ _ _ => 0b001#3
  | .dec _ _ _ => 0b010#3
  | .parse _ => 0b011#3
  | .fmt _ => 0b100#3
  | .gen => 0b101#3
  | .rsvd6 => 0b110#3
  | .rsvd7 => 0b111#3

/-- The operation the three bits of `op` select, with the fields it reads and no other (R60, R61, R63). -/
def Request.select (r : Request) : Instr :=
  match r.op.toNat with
  | 0 => .prf r.k0 r.k1 r.msg
  | 1 => .enc r.k0 r.k1 r.id
  | 2 => .dec r.k0 r.k1 r.id
  | 3 => .parse r.text
  | 4 => .fmt r.id
  | 5 => .gen
  | 6 => .rsvd6
  | _ => .rsvd7

/-- The decoder: `op` first (R199), then the one check on what a request can carry. -/
def decode (c : Config) (r : Request) : Except DecodeError Instr :=
  if r.select.wf c then .ok r.select else .error .messageTooLong

/-- A request whose operand fields are all zero or empty. -/
def Request.blank (op : OpCode) : Request :=
  { op := op, k0 := 0, k1 := 0, id := 0, msg := [], text := [] }

/-- The request record of an instruction: its code, the fields it reads, and zero or empty in the fields it does
not (R60, R61). -/
def encode (i : Instr) : Request :=
  match i with
  | .prf k0 k1 msg => { Request.blank i.opcode with k0 := k0, k1 := k1, msg := msg }
  | .enc k0 k1 id => { Request.blank i.opcode with k0 := k0, k1 := k1, id := id }
  | .dec k0 k1 id => { Request.blank i.opcode with k0 := k0, k1 := k1, id := id }
  | .parse text => { Request.blank i.opcode with text := text }
  | .fmt id => { Request.blank i.opcode with id := id }
  | .gen => Request.blank i.opcode
  | .rsvd6 => Request.blank i.opcode
  | .rsvd7 => Request.blank i.opcode

/-- A record with the fields its operation does not read set to zero or empty (the "read by" column of R60). -/
def Request.readFields (r : Request) : Request :=
  match r.op.toNat with
  | 0 => { r with id := 0, text := [] }
  | 1 => { r with msg := [], text := [] }
  | 2 => { r with msg := [], text := [] }
  | 3 => { r with k0 := 0, k1 := 0, id := 0, msg := [] }
  | 4 => { r with k0 := 0, k1 := 0, msg := [], text := [] }
  | _ => Request.blank r.op

/-- The record a word of spec/opcode_table.json stands for: the table gives bits to `op` only (bits 2..0, mask 0x7), so
every operand field is zero or empty and bits 7..3 belong to no field (assumption 9). -/
def tableRequest (_nbits w : Nat) : Request := Request.blank (BitVec.ofNat 3 w)

/-- The instruction the decoder reads from a word of the opcode table. -/
def decodeTableWord (nbits w : Nat) : Option Instr :=
  match decode Config.default (tableRequest nbits w) with
  | .ok i => some i
  | .error _ => none

end Sys2Proof
end

