-- ==== Sys2Proof/Machine/State.lean ====
section
/-! DEFINITION. Everything the spec gives the block: the generator state `G` (10_state.md R20), the request port with
the one request that can be in flight (R32, R221), the fixed parameters (R8), and, as the model's own fields, the four
agents' traffic: requests issued, clock and random answers not yet taken, and responses given. -/

namespace Sys2Proof.Machine

/-- The generator state `G` (R20): the block's one piece of persistent state, 138 bits. -/
structure GenState where
  /-- `G.last_ms`: the millisecond count of the most recent output. -/
  lastMs     : Word64
  /-- `G.counter`: the outputs made within that millisecond after the first. -/
  counter    : BitVec 32
  /-- `G.high_random`: the bits drawn when `last_ms` last advanced. -/
  highRandom : BitVec 42
  deriving DecidableEq, Repr

/-- The request port (R221): idle, or held by a GEN that has no step yet (R32, R54). -/
inductive Port where
  /-- No request in flight. -/
  | idle
  /-- A GEN waits for the clock: it has had no answer yet, or none above `last_ms` with the counter exhausted
  (R165). -/
  | waitClock
  /-- A GEN has taken the clock answer `now`, which is above `last_ms`, and waits for the random source (R169). -/
  | waitRandom (now : Word64)
  deriving DecidableEq, Repr

/-- One response, with the operation code of the request it answers (R62, R196). No key and no operand is kept
(R204). -/
structure Answer where
  op  : OpCode
  rsp : Response
  deriving DecidableEq, Repr

/-- The machine: one block and what its agents (R12) have handed it. -/
structure State where
  /-- The parameters of R8, fixed for the life of the block. -/
  cfg      : Config
  /-- The generator state `G` (R20). -/
  gen      : GenState
  /-- The request port (R221). -/
  port     : Port
  /-- MODEL'S OWN: requests issued and not yet taken, in the order the block takes them (R53). -/
  requests : List Request
  /-- MODEL'S OWN: the clock's answers not yet taken, next first; empty while the clock has not answered. -/
  clock    : List Word64
  /-- MODEL'S OWN: the random source's answers not yet taken, next first; empty while it blocks (R169). -/
  random   : List (BitVec 42)
  /-- MODEL'S OWN: the responses given, newest first. -/
  answers  : List Answer
  deriving DecidableEq, Repr

/-- The block has no condition that stops it: every error is the response to its own request and the next request is
taken as usual (60_exceptions.md R196, R201), so no step answers a fault. -/
inductive Fault where
  deriving DecidableEq, Repr

/-- Why a step has no next state. -/
inductive Refusal where
  /-- An instruction of the opcode table without a meaning. No arm of `exec` answers it. Safe. -/
  | notModelled (mnemonic : String)
  /-- Raised by `serve` for a record that no request can carry: a PRF message longer than `MSG_MAX` (R109). Safe: the
  host cannot issue such a record, and no reachable state holds one. -/
  | messageTooLong
  deriving DecidableEq, Repr

/-- `G` after reset (R33): all zero, the spec's own choice D14. -/
def GenState.reset : GenState := { lastMs := 0, counter := 0, highRandom := 0 }

/-- A block with parameters `c` right after reset (R221): `G` zero, the port idle, nothing issued or answered. -/
def State.resetWith (c : Config) : State :=
  { cfg := c, gen := GenState.reset, port := .idle, requests := [], clock := [], random := [], answers := [] }

/-- The machine right after reset, with the default parameters of R8. -/
def State.reset : State := State.resetWith Config.default

end Sys2Proof.Machine
end

