-- ==== Sys2Proof/Machine/Operands.lean ====
section
/-! DEFINITION. Operand assembly (20_memory.md R41 to R46, 30_encoding.md R64, R65, R68, R70, R79): byte order, the
identifier's bytes and fields, the PRF message of an identifier, the generator's 74 bits, the raw form of a key. -/

namespace Sys2Proof.Machine

/-- The little-endian value of a byte sequence (R10). -/
def le : List Byte → Nat
  | [] => 0
  | b :: bs => b.toNat + 256 * le bs

/-- The big-endian value of a byte sequence (R10). -/
def be (s : List Byte) : Nat := s.foldl (fun acc b => 256 * acc + b.toNat) 0

/-- The `n` bytes whose little-endian value is `v` modulo 256^n (R10). -/
def leBytes : Nat → Nat → List Byte
  | 0, _ => []
  | n + 1, v => BitVec.ofNat 8 v :: leBytes n (v / 256)

/-- Byte `i` of an identifier, `ID[127 - 8i : 120 - 8i]` for `i` from 0 to 15 (R41). -/
def idByte (id : Ident) (i : Nat) : Byte := id.extractLsb' (8 * (15 - i)) 8

/-- The 16 bytes of an identifier, byte 0 first (R41). -/
def idBytes (id : Ident) : List Byte := (List.range 16).map (idByte id)

/-- The timestamp, `ID[127:80]` (R64, R65). -/
def getTs (id : Ident) : BitVec 48 := id.extractLsb' 80 48

/-- The version marker, `ID[79:76]` (R64, R65). -/
def getVer (id : Ident) : BitVec 4 := id.extractLsb' 76 4

/-- Field A, `ID[75:64]` (R64, R65). -/
def getA (id : Ident) : BitVec 12 := id.extractLsb' 64 12

/-- The variant marker, `ID[63:62]` (R64, R65). -/
def getVar (id : Ident) : BitVec 2 := id.extractLsb' 62 2

/-- Field B, `ID[61:0]` (R64, R65). -/
def getB (id : Ident) : BitVec 62 := id.extractLsb' 0 62

/-- An identifier from its five fields (R65). -/
def makeId (t : BitVec 48) (n : BitVec 4) (a : BitVec 12) (w : BitVec 2) (b : BitVec 62) : Ident :=
  t ++ n ++ a ++ w ++ b

/-- The identifier with its timestamp replaced (R65). -/
def setTs (id : Ident) (t : BitVec 48) : Ident := t ++ id.extractLsb' 0 80

/-- The identifier with its version marker replaced (R65). -/
def setVer (id : Ident) (n : BitVec 4) : Ident := id.extractLsb' 80 48 ++ n ++ id.extractLsb' 0 76

/-- The identifier with its variant marker replaced (R65). -/
def setVar (id : Ident) (w : BitVec 2) : Ident := id.extractLsb' 64 64 ++ w ++ id.extractLsb' 0 62

/-- The version marker of the sortable form (R7, R66). -/
def verSortable : BitVec 4 := 7

/-- The version marker of the facade form (R7, R66). -/
def verFacade : BitVec 4 := 4

/-- The variant marker of both forms (R7, R67). -/
def variantMarker : BitVec 2 := 0b10

/-- The 10-byte PRF message of fields A and B (R68). -/
def prfMsgOf (a : BitVec 12) (b : BitVec 62) : List Byte :=
  [0#4 ++ a.extractLsb' 8 4, a.extractLsb' 0 8, 0#2 ++ b.extractLsb' 56 6, b.extractLsb' 48 8, b.extractLsb' 40 8,
    b.extractLsb' 32 8, b.extractLsb' 24 8, b.extractLsb' 16 8, b.extractLsb' 8 8, b.extractLsb' 0 8]

/-- The PRF message of an identifier (R68): the markers and the timestamp do not enter it. -/
def prfMsg (id : Ident) : List Byte := prfMsgOf (getA id) (getB id)

/-- The generator's 74 bits, `(high_random << 32) | counter` (R70). -/
def genBits (g : GenState) : BitVec 74 := g.highRandom ++ g.counter

/-- The identifier a generator state spells (R166, R172): the low 48 bits of `last_ms`, version 7, the 74 bits of R70
over fields A and B. -/
def genId (g : GenState) : Ident :=
  makeId (g.lastMs.extractLsb' 0 48) verSortable ((genBits g).extractLsb' 62 12) variantMarker
    ((genBits g).extractLsb' 0 62)

/-- The host's conversion of a raw key (R44, R79): 16 bytes, `k0` then `k1`, each little-endian. A raw key of another
length is the host's `KeyFormatError` (R194). -/
def keyOfRaw (r : List Byte) : Except ErrorCode (Word64 × Word64) :=
  if r.length = 16 then .ok (BitVec.ofNat 64 (le (r.take 8)), BitVec.ofNat 64 (le (r.drop 8)))
  else .error .keyFormatError

/-- The raw form of a key (R44, R79). -/
def rawOfKey (k0 k1 : Word64) : List Byte := leBytes 8 k0.toNat ++ leBytes 8 k1.toNat

end Sys2Proof.Machine
end

