-- ==== Sys2Proof/Machine/Flags.lean ====
section
/-! DEFINITION. The block has no flags (10_state.md R28); what stands in their place is the status field of each
response (30_encoding.md R62, 60_exceptions.md R191) and the one condition that decides it by a parameter, the version
check (41_mask_transform.md R123). -/

namespace Sys2Proof.Machine

/-- The status code of an error (R191). -/
def errorStatus : ErrorCode → BitVec 3
  | .parseError => 1
  | .unexpectedVersionError => 2
  | .illegalOp => 3
  | .keyFormatError => 4

/-- The response record of a response (R62): `OK` is status 0 with the operation's one payload field, an error is its
code with no payload (R197). -/
def responseRecord : Response → ResponseRecord
  | .prf v => { status := 0, prf := some v, id := none, text := none }
  | .id v => { status := 0, prf := none, id := some v, text := none }
  | .text t => { status := 0, prf := none, id := none, text := some t }
  | .error e => { status := errorStatus e, prf := none, id := none, text := none }

/-- The identifier a response carries, if it carries one. -/
def responseId? : Response → Option Ident
  | .prf _ => none
  | .id v => some v
  | .text _ => none
  | .error _ => none

/-- `version_refused(op, ver)` of R123 for an operation whose expected version marker is `expected` (7 for ENC, 4 for
DEC). -/
def versionRefused (check : VersionCheck) (expected ver : BitVec 4) : Bool :=
  match check with
  | .noCheck => false
  | .either => ver != verFacade && ver != verSortable
  | .exact => ver != expected

end Sys2Proof.Machine
end

