-- ==== Sys2Proof/Machine/Ops.lean ====
section
/-! DEFINITION. The shared operations: giving a response, and raising an error, which is the block's whole exception
mechanism (60_exceptions.md R196, R197, R201): the error is the response, nothing is saved, no mode changes, control
goes nowhere, and there is no return from it (R202). -/

namespace Sys2Proof.Machine

/-- End an operation with a response: the host sees it, and the port is free for the next request (R49, R53). -/
def State.respond (s : State) (op : OpCode) (rsp : Response) : State :=
  { s with port := .idle, answers := { op := op, rsp := rsp } :: s.answers }

/-- `raise <Error>` (R11, R196, R197): the error is the response, with no payload and no effect on `G`. -/
def State.raise (s : State) (op : OpCode) (e : ErrorCode) : State := s.respond op (.error e)

/-- The one read-modify-write of the block (R21, R171): `G` is replaced whole and its identifier is the response to
GEN (R166). -/
def State.emit (s : State) (g : GenState) : State := { s with gen := g }.respond Instr.gen.opcode (.id (genId g))

end Sys2Proof.Machine
end

