-- ==== Sys2Proof/Machine/Codec.lean ====
section
/-! DEFINITION. The text codec (42_codec.md R140, R141; 30_encoding.md R72 to R75): PARSE and FMT. -/

namespace Sys2Proof.Machine

/-- The character `'-'` (R73). -/
def hyphen : Byte := 0x2D

/-- The offsets that hold a hyphen (R72). -/
def hyphenOffsets : List Nat := [8, 13, 18, 23]

/-- The character offset of digit `d` (R75). -/
def digitOffset (d : Nat) : Nat :=
  d + (decide (8 ≤ d)).toNat + (decide (12 ≤ d)).toNat + (decide (16 ≤ d)).toNat + (decide (20 ≤ d)).toNat

/-- The nibble digit `d` spells, `ID[127 - 4d : 124 - 4d]` (R75). -/
def idNibble (id : Ident) (d : Nat) : Nibble := id.extractLsb' (124 - 4 * d) 4

/-- `hexval(c)` (R73, R74): the value of a hexadecimal digit of either case; no other byte is a digit. -/
def hexval (c : Byte) : Option Nibble :=
  if 0x30 ≤ c.toNat ∧ c.toNat ≤ 0x39 then some (BitVec.ofNat 4 (c.toNat - 0x30))
  else if 0x41 ≤ c.toNat ∧ c.toNat ≤ 0x46 then some (BitVec.ofNat 4 (c.toNat - 0x41 + 10))
  else if 0x61 ≤ c.toNat ∧ c.toNat ≤ 0x66 then some (BitVec.ofNat 4 (c.toNat - 0x61 + 10))
  else none

/-- `hexchar(n)` (R74): `'0'` to `'9'`, then lowercase `'a'` to `'f'`. -/
def hexchar (n : Nibble) : Byte :=
  if n.toNat < 10 then BitVec.ofNat 8 (0x30 + n.toNat) else BitVec.ofNat 8 (0x61 + (n.toNat - 10))

/-- The values of the digits listed in `ds`, or nothing if one of them is not a digit (R140). -/
def readDigits (text : List Byte) : List Nat → Option (List Nibble)
  | [] => some []
  | d :: ds =>
    match (text[digitOffset d]?).bind hexval, readDigits text ds with
    | some n, some ns => some (n :: ns)
    | _, _ => none

/-- `nib_0 ‖ nib_1 ‖ …`, the first digit most significant (R140). -/
def joinNibbles (ns : List Nibble) : Nat := ns.foldl (fun acc n => 16 * acc + n.toNat) 0

/-- Whether every hyphen offset of the text holds a hyphen (R140). -/
def hyphensPlaced (text : List Byte) : Bool := hyphenOffsets.all fun p => text[p]? == some hyphen

/-- `parse(s)` (R140): the identifier the text spells, or nothing for a malformed text. -/
def parseText (text : List Byte) : Option Ident :=
  if text.length = 36 ∧ hyphensPlaced text then
    (readDigits text (List.range 32)).map fun ns => BitVec.ofNat 128 (joinNibbles ns)
  else none

/-- `format(identifier)` (R141): 36 hyphens with each digit written over its own offset, which leaves the hyphens of
R72. -/
def formatText (id : Ident) : List Byte :=
  (List.range 32).foldl (fun text d => text.set (digitOffset d) (hexchar (idNibble id d))) (List.replicate 36 hyphen)

/-- PARSE (R140): responds the identifier, or raises ParseError; reads and writes no state. -/
def execParse (text : List Byte) (s : State) : Host.Outcome State Fault Refusal :=
  match parseText text with
  | some id => .next (s.respond (Instr.parse text).opcode (.id id))
  | none => .next (s.raise (Instr.parse text).opcode .parseError)

/-- FMT (R141): responds the 36 characters; never fails, checks no field (R144). -/
def execFmt (id : Ident) (s : State) : Host.Outcome State Fault Refusal :=
  .next (s.respond (Instr.fmt id).opcode (.text (formatText id)))

end Sys2Proof.Machine
end

