-- ==== Sys2Proof/Machine/Generator.lean ====
section
/-! DEFINITION. The monotonic generator (43_generator.md R160 to R173): GEN, and the two ways it is held. -/

namespace Sys2Proof.Machine

/-- `0xFFFFFFFF`, where the counter would wrap (R163, R165). -/
def counterMax : BitVec 32 := 0xFFFFFFFF

/-- The step of GEN for the clock answer `now` (R160). Above `last_ms` it draws 42 bits and starts a millisecond (R162),
or waits for the random source (R169). At or below `last_ms` it counts up in the millisecond it is in (R163, R164), or,
with the counter exhausted, is held for another clock answer (R165). -/
def genWith (now : Word64) (s : State) : Host.Outcome State Fault Refusal :=
  if s.gen.lastMs < now then
    match s.random with
    | [] => .next { s with port := .waitRandom now }
    | rnd :: rest =>
      .next ({ s with random := rest }.emit { lastMs := now, counter := 0, highRandom := rnd })
  else if s.gen.counter = counterMax then .next { s with port := .waitClock }
  else .next (s.emit { s.gen with counter := s.gen.counter + 1 })

/-- One look at the clock (R161): the next answer is taken and its step made; without an answer the GEN waits. -/
def genLook (s : State) : Host.Outcome State Fault Refusal :=
  match s.clock with
  | [] => .next { s with port := .waitClock }
  | now :: rest => genWith now { s with clock := rest }

/-- GEN (R160): a first look at the clock. -/
def execGen (s : State) : Host.Outcome State Fault Refusal := genLook s

end Sys2Proof.Machine
end

