-- ==== Sys2Proof/Machine/Prf.lean ====
section
/-! DEFINITION. The keyed PRF, SipHash-2-4, step by step (40_prf.md R100 to R108), and the operation PRF. -/

namespace Sys2Proof.Machine

/-- The four working words (R101). They live inside one operation and are not state (R31). -/
structure SipWords where
  v0 : Word64
  v1 : Word64
  v2 : Word64
  v3 : Word64
  deriving DecidableEq, Repr

/-- Initialisation from the key (R101). -/
def sipInit (k0 k1 : Word64) : SipWords :=
  { v0 := k0 ^^^ 0x736f6d6570736575, v1 := k1 ^^^ 0x646f72616e646f6d
    v2 := k0 ^^^ 0x6c7967656e657261, v3 := k1 ^^^ 0x7465646279746573 }

/-- The round (R102), its steps in the rule's order and under its numbers. -/
def sipround (v : SipWords) : SipWords :=
  let v0 := v.v0 + v.v1             -- 1
  let v2 := v.v2 + v.v3             -- 2
  let v1 := v.v1.rotateLeft 13      -- 3
  let v3 := v.v3.rotateLeft 16      -- 4
  let v1 := v1 ^^^ v0               -- 5
  let v3 := v3 ^^^ v2               -- 6
  let v0 := v0.rotateLeft 32        -- 7
  let v2 := v2 + v1                 -- 8
  let v0 := v0 + v3                 -- 9
  let v1 := v1.rotateLeft 17        -- 10
  let v3 := v3.rotateLeft 21        -- 11
  let v1 := v1 ^^^ v2               -- 12
  let v3 := v3 ^^^ v0               -- 13
  let v2 := v2.rotateLeft 32        -- 14
  { v0 := v0, v1 := v1, v2 := v2, v3 := v3 }

/-- `n` rounds. -/
def siprounds : Nat → SipWords → SipWords
  | 0, v => v
  | n + 1, v => siprounds n (sipround v)

/-- Compression of one block (R104). -/
def sipCompress (v : SipWords) (m : Word64) : SipWords :=
  let w := siprounds Config.cRounds { v with v3 := v.v3 ^^^ m }
  { w with v0 := w.v0 ^^^ m }

/-- Full block `i` of a message, `le(msg[8i .. 8i + 8))` (R43, R103). -/
def sipBlock (msg : List Byte) (i : Nat) : Word64 := BitVec.ofNat 64 (le ((msg.drop (8 * i)).take 8))

/-- The full blocks, in order (R103). -/
def sipBlocks (msg : List Byte) : List Word64 := (List.range (msg.length / 8)).map (sipBlock msg)

/-- The final block (R105): the trailing bytes in the low bytes, the length modulo 256 in the top byte. -/
def sipLast (msg : List Byte) : Word64 :=
  BitVec.ofNat 64 (le (msg.drop (8 * (msg.length / 8))) ||| (msg.length % 256) <<< 56)

/-- Finalization (R106). -/
def sipFinalize (v : SipWords) : Word64 :=
  let w := siprounds Config.dRounds { v with v2 := v.v2 ^^^ 0xFF }
  w.v0 ^^^ w.v1 ^^^ w.v2 ^^^ w.v3

/-- `prf(msg, k0, k1)` (R107): total over every message and key (R109). -/
def prf (msg : List Byte) (k0 k1 : Word64) : Word64 :=
  sipFinalize (sipCompress ((sipBlocks msg).foldl sipCompress (sipInit k0 k1)) (sipLast msg))

/-- PRF (R100): responds the PRF of the message; never fails, reads and writes no state. -/
def execPrf (k0 k1 : Word64) (msg : List Byte) (s : State) : Host.Outcome State Fault Refusal :=
  .next (s.respond (Instr.prf k0 k1 msg).opcode (.prf (prf msg k0 k1)))

end Sys2Proof.Machine
end

