-- ==== Sys2Proof/Machine/Mask.lean ====
section
/-! DEFINITION. The mask transform (41_mask_transform.md R120 to R123): ENC and DEC. -/

namespace Sys2Proof.Machine

/-- `mask48(ID, k0, k1)` (R69): the low 48 bits of the PRF of the identifier's message. -/
def mask48 (id : Ident) (k0 k1 : Word64) : BitVec 48 := (prf (prfMsg id) k0 k1).extractLsb' 0 48

/-- `xf(ID, k0, k1, n)` (R122): the mask XORed into the timestamp, version `n`, variant 0b10, A and B copied. -/
def xf (id : Ident) (k0 k1 : Word64) (n : BitVec 4) : Ident :=
  makeId (getTs id ^^^ mask48 id k0 k1) n (getA id) variantMarker (getB id)

/-- ENC (R120): refused by the version check (R123), or responds the facade form. -/
def execEnc (k0 k1 : Word64) (id : Ident) (s : State) : Host.Outcome State Fault Refusal :=
  if versionRefused s.cfg.versionCheck verSortable (getVer id) then
    .next (s.raise (Instr.enc k0 k1 id).opcode .unexpectedVersionError)
  else .next (s.respond (Instr.enc k0 k1 id).opcode (.id (xf id k0 k1 verFacade)))

/-- DEC (R121): refused by the version check (R123), or responds the sortable form. -/
def execDec (k0 k1 : Word64) (id : Ident) (s : State) : Host.Outcome State Fault Refusal :=
  if versionRefused s.cfg.versionCheck verFacade (getVer id) then
    .next (s.raise (Instr.dec k0 k1 id).opcode .unexpectedVersionError)
  else .next (s.respond (Instr.dec k0 k1 id).opcode (.id (xf id k0 k1 verSortable)))

end Sys2Proof.Machine
end

