-- ==== Sys2Proof/Machine/Reserved.lean ====
section
/-! DEFINITION. The two reserved operation codes (30_encoding.md R63, 60_exceptions.md R195). -/

namespace Sys2Proof.Machine

/-- Code 0b110 (R63): IllegalOp, no payload, no state change. -/
def execRsvd6 (s : State) : Host.Outcome State Fault Refusal := .next (s.raise Instr.rsvd6.opcode .illegalOp)

/-- Code 0b111 (R63): IllegalOp, no payload, no state change. -/
def execRsvd7 (s : State) : Host.Outcome State Fault Refusal := .next (s.raise Instr.rsvd7.opcode .illegalOp)

end Sys2Proof.Machine
end

