-- ==== Sys2Proof/Machine/Dispatch.lean ====
section
/-! DEFINITION. One arm per row of the opcode map (30_encoding.md R61, R63). -/

namespace Sys2Proof.Machine

def exec (i : Instr) (s : State) : Host.Outcome State Fault Refusal :=
  match i with
  | .prf k0 k1 msg => Sys2Proof.Machine.execPrf k0 k1 msg s
  | .enc k0 k1 id => Sys2Proof.Machine.execEnc k0 k1 id s
  | .dec k0 k1 id => Sys2Proof.Machine.execDec k0 k1 id s
  | .parse text => Sys2Proof.Machine.execParse text s
  | .fmt id => Sys2Proof.Machine.execFmt id s
  | .gen => Sys2Proof.Machine.execGen s
  | .rsvd6 => Sys2Proof.Machine.execRsvd6 s
  | .rsvd7 => Sys2Proof.Machine.execRsvd7 s

end Sys2Proof.Machine
end

