-- ==== Sys2Proof/Machine/Port.lean ====
section
/-! DEFINITION. The request port (20_memory.md R53, R54): one request at a time, answered before the next is taken; a
held GEN keeps the port until it completes. And the moves of the agents outside the block (00_scope.md R12,
70_reset_and_hazards.md R220). -/

namespace Sys2Proof.Machine

/-- One step of the block. A held GEN goes on: it takes another look at the clock (R165), or tries the random source
again with the clock answer it has (R169). An idle port takes the next request and runs it (R53). With nothing issued
nothing happens (R200). -/
def serve (s : State) : Host.Outcome State Fault Refusal :=
  match s.port with
  | .waitClock => genLook s
  | .waitRandom now => genWith now s
  | .idle =>
    match s.requests with
    | [] => .next s
    | r :: rest =>
      match decode s.cfg r with
      | .ok i => exec i { s with requests := rest }
      | .error .messageTooLong => .refused .messageTooLong

/-- What the agents outside the block can do between its steps (R12, R220). -/
inductive Move where
  /-- The host issues a request. -/
  | issue (r : Request)
  /-- The clock gives an answer. -/
  | clockAnswer (now : Word64)
  /-- The random source gives an answer. -/
  | randomAnswer (rnd : BitVec 42)
  /-- Reset. -/
  | reset
  deriving DecidableEq, Repr

/-- The state after a move, or nothing where the move cannot be made: a message longer than `MSG_MAX` cannot be put in a
request (R109). Reset writes `G` and abandons a held GEN without a response, and does nothing else (R220). -/
def State.move (s : State) : Move → Option State
  | .issue r => if r.carriable s.cfg then some { s with requests := s.requests ++ [r] } else none
  | .clockAnswer now => some { s with clock := s.clock ++ [now] }
  | .randomAnswer rnd => some { s with random := s.random ++ [rnd] }
  | .reset => some { s with gen := GenState.reset, port := .idle }

end Sys2Proof.Machine
end

