-- ==== Sys2Proof/Machine/Step.lean ====
section
/-! DEFINITION. One step of the machine, and how a request of the opcode table is placed where the next step takes it. -/

namespace Sys2Proof.Machine

/-- One step of the machine: the block serves its port. -/
def step (s : State) : Host.Outcome State Fault Refusal := serve s

/-- `s` with the request of an opcode-table word at the head of an idle port, so that the next step takes and runs it
(assumption 10). -/
def State.withFetchWord (s : State) (nbits w : Nat) : State :=
  { s with port := .idle, requests := tableRequest nbits w :: s.requests }

end Sys2Proof.Machine
end

