-- ==== Sys2Proof/Safety.lean ====
section
/-! DEFINITION. The terms claims are made in: the invariant of every reachable state, what an answer may look like,
the order of the generator's outputs (43_generator.md R168, R170), runs between two resets, and when a run is finished
(70_reset_and_hazards.md R223). -/

namespace Sys2Proof.Machine

/-- A held GEN that waits for the random source has a clock answer above `last_ms` (R169). -/
def Port.above (lastMs : Word64) : Port → Prop
  | .idle => True
  | .waitClock => True
  | .waitRandom now => lastMs < now

/-- What holds of every reachable state: legal parameters (R8), only requests a record can carry (R109), and a GEN
waits for the random source only with a clock answer above `last_ms` (R169). -/
structure State.Inv (s : State) : Prop where
  cfg_wf : s.cfg.wf = true
  requests_carriable : ∀ r ∈ s.requests, r.carriable s.cfg = true
  held_above : s.port.above s.gen.lastMs

/-- What an answer of a block with parameters `c` may look like: the payload of its own operation with the markers of
R66 and R67, or the error its operation can raise (R191 to R198). -/
def Answer.sound (c : Config) (a : Answer) : Prop :=
  match a.rsp with
  | .prf _ => a.op = 0b000#3
  | .id v =>
    (a.op = 0b001#3 ∧ getVer v = verFacade ∧ getVar v = variantMarker) ∨
    (a.op = 0b010#3 ∧ getVer v = verSortable ∧ getVar v = variantMarker) ∨
    a.op = 0b011#3 ∨
    (a.op = 0b101#3 ∧ getVer v = verSortable ∧ getVar v = variantMarker)
  | .text t => a.op = 0b100#3 ∧ t.length = 36
  | .error .parseError => a.op = 0b011#3
  | .error .unexpectedVersionError => (a.op = 0b001#3 ∨ a.op = 0b010#3) ∧ c.versionCheck ≠ .noCheck
  | .error .illegalOp => a.op = 0b110#3 ∨ a.op = 0b111#3
  | .error .keyFormatError => False

/-- The identifiers of the completed GEN requests, newest first. -/
def genIds (answers : List Answer) : List Ident :=
  answers.filterMap fun a => if a.op = Instr.gen.opcode then responseId? a.rsp else none

/-- A text of the canonical form in either case (R72, R140): 36 bytes, a hyphen at the four offsets, one of the 22
hexadecimal digit characters at each of the other 32. -/
def CanonicalText (text : List Byte) : Prop :=
  text.length = 36 ∧ (∀ p ∈ [8, 13, 18, 23], text[p]? = some 0x2D) ∧
  ∀ d, d < 32 → ∃ c, text[digitOffset d]? = some c ∧
    ((0x30 ≤ c.toNat ∧ c.toNat ≤ 0x39) ∨ (0x41 ≤ c.toNat ∧ c.toNat ≤ 0x46) ∨ (0x61 ≤ c.toNat ∧ c.toNat ≤ 0x66))

/-- 2^48, the bound under which the generator's guarantees are stated (R172). -/
def msBound : Word64 := 0x1000000000000

/-- A clock answer a held GEN keeps is below 2^48. -/
def Port.small : Port → Prop
  | .idle => True
  | .waitClock => True
  | .waitRandom now => now < msBound

/-- Every millisecond count the block holds or will be given is below 2^48 (R172). -/
structure State.SmallClock (s : State) : Prop where
  clock : ∀ now ∈ s.clock, now < msBound
  lastMs : s.gen.lastMs < msBound
  held : s.port.small

/-- The order of the generator's outputs (R170): each is above every older one, and none is above the identifier the
present `G` spells. -/
structure State.Ordered (s : State) : Prop where
  small : s.SmallClock
  increasing : (genIds s.answers).Pairwise (· > ·)
  newest : ∀ v ∈ genIds s.answers, v ≤ genId s.gen

/-- What can happen between two resets while every clock answer is below 2^48: steps of the block, and moves of the
host, the clock and the random source. -/
inductive BetweenResets : State → State → Prop where
  | refl (s : State) : BetweenResets s s
  | step {s t u : State} : BetweenResets s t → Machine.step t = .next u → BetweenResets s u
  | issue {s t u : State} (r : Request) : BetweenResets s t → t.move (.issue r) = some u → BetweenResets s u
  | clock {s t u : State} (now : Word64) : BetweenResets s t → now < msBound → t.move (.clockAnswer now) = some u →
      BetweenResets s u
  | random {s t u : State} (rnd : BitVec 42) : BetweenResets s t → t.move (.randomAnswer rnd) = some u →
      BetweenResets s u

/-- The states of every run (R223): a block with legal parameters after reset, its steps, and every move of its
agents, resets among them. -/
inductive Reachable : State → Prop where
  | start (c : Config) : c.wf = true → Reachable (State.resetWith c)
  | step {s t : State} : Reachable s → Machine.step s = .next t → Reachable t
  | move {s t : State} (m : Move) : Reachable s → s.move m = some t → Reachable t

/-- A run is finished when every request issued has its response (R223). -/
def State.finished (s : State) : Prop := s.requests = [] ∧ s.port = .idle

end Sys2Proof.Machine
end

