-- ==== Sys2Proof/Certificates/Slice0/Obligations.lean ====
section
/-! DEFINITION. The statements for the provers. Each says which rule of spec/ it formalises, or, where it rests on a
choice, whose choice it is. -/

open Sys2Proof Sys2Proof.Machine

/-! ### Requests and their encoding -/

/-- Decoding the record of a well-formed instruction gives the instruction back, every operand at every value
(R60, R61; the record and its codes are the spec's own decision D4). -/
def Obligations.DecodeOfEncodeIsTheInstruction : Prop :=
  ∀ (c : Config) (i : Instr), i.wf c = true → decode c (encode i) = .ok i

/-- The other direction: encoding what a record decodes to gives that record with every field its operation does not
read cleared, so one record's worth of read fields has one meaning (R60, R61, R63; decision D4). -/
def Obligations.EncodeOfDecodeClearsUnreadFields : Prop :=
  ∀ (c : Config) (r : Request) (i : Instr), decode c r = .ok i → encode i = r.readFields

/-- A request field the selected operation does not read has no effect on response or state: two records that agree on
the code and on the fields it reads make the machine take the same step (R63; decisions D4, D33). -/
def Obligations.UnreadFieldsHaveNoEffect : Prop :=
  ∀ (s : State) (r r' : Request) (rest : List Request), r.readFields = r'.readFields →
    step { s with port := .idle, requests := r :: rest } = step { s with port := .idle, requests := r' :: rest }

/-- Sanity: the eight words of the opcode table decode to their rows (R61, R63; decision D4). That a word stands for
a record whose operand fields are zero or empty is the model's own choice (assumption 9). -/
def Obligations.OpcodeTableWordsDecode : Prop :=
  decodeTableWord 8 0x0 = some (.prf 0 0 []) ∧ decodeTableWord 8 0x1 = some (.enc 0 0 0) ∧
  decodeTableWord 8 0x2 = some (.dec 0 0 0) ∧ decodeTableWord 8 0x3 = some (.parse []) ∧
  decodeTableWord 8 0x4 = some (.fmt 0) ∧ decodeTableWord 8 0x5 = some .gen ∧
  decodeTableWord 8 0x6 = some .rsvd6 ∧ decodeTableWord 8 0x7 = some .rsvd7

/-- A step of an idle port with a request issued takes that request and runs the instruction it decodes to (R53;
decision D19). -/
def Obligations.StepRunsTheDecodedRequest : Prop :=
  ∀ (s : State) (r : Request) (rest : List Request) (i : Instr), s.port = .idle → s.requests = r :: rest →
    decode s.cfg r = .ok i → step s = exec i { s with requests := rest }

/-- The word of an opcode-table row, placed where the machine takes its next request, is run by the very next step
(the model's own placement, assumption 10). -/
def Obligations.FetchWordRunsItsInstruction : Prop :=
  ∀ (s : State) (nbits w : Nat) (i : Instr), decodeTableWord nbits w = some i →
    step (s.withFetchWord nbits w) = exec i { s with port := .idle }

/-- Nothing happens except in answer to a request, and a held GEN goes nowhere until an agent moves: an idle port with
nothing issued, a GEN the clock has not answered, and a GEN the random source has not answered leave the state as it is
(R200, R169, R226; decisions D17, D22). Waiting for a clock that has not answered is the model's own choice (assumption
3), and that a GEN which waits for the random source keeps its clock answer and does not look again, whatever the clock
has answered since, is the model's reading (assumption 5). -/
def Obligations.NothingToDoChangesNothing : Prop :=
  (∀ s : State, s.port = .idle → s.requests = [] → step s = .next s) ∧
  (∀ s : State, s.port = .waitClock → s.clock = [] → step s = .next s) ∧
  (∀ (s : State) (now : Word64), s.port = .waitRandom now → s.gen.lastMs < now → s.random = [] → step s = .next s)

/-! ### The keyed PRF -/

/-- PRF completes on every message and key, with the PRF of the message and nothing else changed (R100, R109). -/
def Obligations.PrfRespondsItsValue : Prop :=
  ∀ (s : State) (k0 k1 : Word64) (msg : List Byte),
    exec (.prf k0 k1 msg) s =
      .next { s with port := .idle, answers := { op := 0b000#3, rsp := .prf (prf msg k0 k1) } :: s.answers }

/-- The message is cut into `n div 8` full blocks, in order, and byte `j` of block `i`, counted from the least
significant, is message byte `8i + j` (R43, R103). -/
def Obligations.PrfBlocksAreLittleEndian : Prop :=
  ∀ msg : List Byte, (sipBlocks msg).length = msg.length / 8 ∧
    ∀ i, i < msg.length / 8 → ∃ m, (sipBlocks msg)[i]? = some m ∧
      ∀ j, j < 8 → m.extractLsb' (8 * j) 8 = msg[8 * i + j]?.getD 0

/-- The final block: the trailing bytes from the low end, zero bytes between, the length modulo 256 in the top byte
(R105). -/
def Obligations.PrfFinalBlockHoldsTailAndLength : Prop :=
  ∀ msg : List Byte,
    (∀ j, j < msg.length % 8 → (sipLast msg).extractLsb' (8 * j) 8 = msg[8 * (msg.length / 8) + j]?.getD 0) ∧
    (∀ j, msg.length % 8 ≤ j → j < 7 → (sipLast msg).extractLsb' (8 * j) 8 = 0) ∧
    (sipLast msg).extractLsb' 56 8 = BitVec.ofNat 8 (msg.length % 256)

/-- The round loses nothing: two different quadruples of working words have different images (R102, R108). -/
def Obligations.SiproundIsInjective : Prop := ∀ v w : SipWords, sipround v = sipround w → v = w

/-- The round, its fourteen steps written out and its rotations as the spec writes them: `rotl64` loses no bit and
addition drops the carry; and the rule's worked example (R102, R108, R9; which word each step acts on is the spec's own
addition, decision D35). -/
def Obligations.SiproundIsTheFourteenSteps : Prop :=
  (∀ v0 v1 v2 v3 : Word64,
    let rotl : Word64 → Nat → Word64 := fun v r => (v <<< r) ||| (v >>> (64 - r))
    let s1 := v0 + v1
    let s2 := v2 + v3
    let s5 := rotl v1 13 ^^^ s1
    let s6 := rotl v3 16 ^^^ s2
    let s8 := s2 + s5
    let s9 := rotl s1 32 + s6
    sipround { v0 := v0, v1 := v1, v2 := v2, v3 := v3 } =
      { v0 := s9, v1 := rotl s5 17 ^^^ s8, v2 := rotl s8 32, v3 := rotl s6 21 ^^^ s9 }) ∧
  sipround { v0 := 1, v1 := 0, v2 := 0, v3 := 0 } =
    { v0 := 0x0000000100000000, v1 := 0x0000000000020001, v2 := 0x0000000100000000, v3 := 0x0000000100000000 }

/-- What `prf` computes, as the working words before and after each block: they start from the key words and the four
constants (R101); the full blocks in order and then the final block are each XORed into `v3` before two rounds and
into `v0` after them (R103 to R105); 0xFF is XORed into `v2`, four rounds follow, and the value is the XOR of the four
words (R106, R107). The constants and the words acted on are the spec's own addition (decision D35). -/
def Obligations.PrfIsTheWrittenAlgorithm : Prop :=
  ∀ (msg : List Byte) (k0 k1 : Word64), ∃ v : Nat → SipWords,
    v 0 = { v0 := k0 ^^^ 0x736f6d6570736575, v1 := k1 ^^^ 0x646f72616e646f6d
            v2 := k0 ^^^ 0x6c7967656e657261, v3 := k1 ^^^ 0x7465646279746573 } ∧
    (∀ i m, (sipBlocks msg ++ [sipLast msg])[i]? = some m →
      ∃ w, w = sipround (sipround { v i with v3 := (v i).v3 ^^^ m }) ∧ v (i + 1) = { w with v0 := w.v0 ^^^ m }) ∧
    ∃ f last, last = v (msg.length / 8 + 1) ∧
      f = sipround (sipround (sipround (sipround { last with v2 := last.v2 ^^^ 0x00000000000000FF }))) ∧
      prf msg k0 k1 = f.v0 ^^^ f.v1 ^^^ f.v2 ^^^ f.v3

/-- The two values the document prints of the interoperability contract: under the key of the reference vectors, the
PRF of the empty message and of the one-byte message 0x00 (R110). -/
def Obligations.PrfGivesThePrintedValues : Prop :=
  prf [] 0x0706050403020100 0x0f0e0d0c0b0a0908 = 0x726fdb47dd0e0e31 ∧
  prf [0x00] 0x0706050403020100 0x0f0e0d0c0b0a0908 = 0x74f839c593dc67fd

/-! ### The identifier -/

/-- Reading a field of an assembled identifier gives that field, an identifier is made of its five fields, and each
setter changes the one field it names (R64, R65). -/
def Obligations.FieldAccessorsAgree : Prop :=
  (∀ t n a w b, getTs (makeId t n a w b) = t ∧ getVer (makeId t n a w b) = n ∧ getA (makeId t n a w b) = a ∧
    getVar (makeId t n a w b) = w ∧ getB (makeId t n a w b) = b) ∧
  (∀ id, makeId (getTs id) (getVer id) (getA id) (getVar id) (getB id) = id) ∧
  (∀ id t, setTs id t = makeId t (getVer id) (getA id) (getVar id) (getB id)) ∧
  (∀ id n, setVer id n = makeId (getTs id) n (getA id) (getVar id) (getB id)) ∧
  (∀ id w, setVar id w = makeId (getTs id) (getVer id) (getA id) w (getB id))

/-- Comparing two identifiers byte by byte from byte 0 gives the order of their 128-bit values (R42). -/
def Obligations.ByteOrderIsNumericOrder : Prop :=
  ∀ x y : Ident, (idBytes x < idBytes y ↔ x < y) ∧ (idBytes x = idBytes y ↔ x = y)

/-- The PRF message is the ten bytes of R68, in both of the forms the rule gives, and neither the timestamp nor a
marker enters it. -/
def Obligations.PrfMessageIsFieldsAandB : Prop :=
  (∀ id, prfMsg id =
    [idByte id 6 &&& 0x0F, idByte id 7, idByte id 8 &&& 0x3F, idByte id 9, idByte id 10, idByte id 11, idByte id 12,
      idByte id 13, idByte id 14, idByte id 15]) ∧
  (∀ id, prfMsg id =
    [(0#4 ++ (getA id).extractLsb' 8 4 : BitVec 8), (getA id).extractLsb' 0 8,
      (0#2 ++ (getB id).extractLsb' 56 6 : BitVec 8), (getB id).extractLsb' 48 8, (getB id).extractLsb' 40 8,
      (getB id).extractLsb' 32 8, (getB id).extractLsb' 24 8, (getB id).extractLsb' 16 8, (getB id).extractLsb' 8 8,
      (getB id).extractLsb' 0 8]) ∧
  (∀ t t' n n' a w w' b, prfMsg (makeId t n a w b) = prfMsg (makeId t' n' a w' b))

/-- The host's key conversion: byte `j` of `k0`, counted from the least significant, is raw byte `j`, byte `j` of `k1`
is raw byte `8 + j`, the raw form converts back, and a raw key of another length is refused (R44, R79, R194). -/
def Obligations.RawKeyIsTwoLittleEndianWords : Prop :=
  (∀ r : List Byte, r.length = 16 → ∃ k0 k1, keyOfRaw r = .ok (k0, k1) ∧
    ∀ j, j < 8 → k0.extractLsb' (8 * j) 8 = r[j]?.getD 0 ∧ k1.extractLsb' (8 * j) 8 = r[8 + j]?.getD 0) ∧
  (∀ k0 k1, keyOfRaw (rawOfKey k0 k1) = .ok (k0, k1)) ∧
  (∀ r : List Byte, r.length ≠ 16 → keyOfRaw r = .error .keyFormatError)

/-! ### The mask transform -/

/-- ENC of an operand that is not refused: the low 48 bits of the PRF of the identifier's message XORed into the
timestamp, version 4, variant 0b10, fields A and B copied, and nothing else changed (R120, R122, R69). -/
def Obligations.EncRespondsTheFacade : Prop :=
  ∀ (s : State) (k0 k1 : Word64) (id : Ident), versionRefused s.cfg.versionCheck 7 (getVer id) = false →
    exec (.enc k0 k1 id) s =
      .next { s with port := .idle, answers :=
        { op := 0b001#3, rsp := .id (makeId (getTs id ^^^ (prf (prfMsg id) k0 k1).extractLsb' 0 48) 4 (getA id) 0b10
            (getB id)) } :: s.answers }

/-- DEC of an operand that is not refused: as ENC, with version 7 (R121, R122, R69). -/
def Obligations.DecRespondsTheSortable : Prop :=
  ∀ (s : State) (k0 k1 : Word64) (id : Ident), versionRefused s.cfg.versionCheck 4 (getVer id) = false →
    exec (.dec k0 k1 id) s =
      .next { s with port := .idle, answers :=
        { op := 0b010#3, rsp := .id (makeId (getTs id ^^^ (prf (prfMsg id) k0 k1).extractLsb' 0 48) 7 (getA id) 0b10
            (getB id)) } :: s.answers }

/-- ENC and DEC answer UnexpectedVersionError, with no payload and nothing else changed, exactly where the version
check refuses the operand's version marker: never under NONE, under EITHER for a marker that is neither 4 nor 7, under
EXACT for a marker other than 7 (ENC) or 4 (DEC) (R123, R193, R197; decisions D12, D13, D21). -/
def Obligations.VersionCheckRefusals : Prop :=
  ∀ (s : State) (k0 k1 : Word64) (id : Ident),
    (exec (.enc k0 k1 id) s =
        .next { s with port := .idle, answers := { op := 0b001#3, rsp := .error .unexpectedVersionError } :: s.answers } ↔
      (s.cfg.versionCheck = .either ∧ getVer id ≠ 4 ∧ getVer id ≠ 7) ∨
      (s.cfg.versionCheck = .exact ∧ getVer id ≠ 7)) ∧
    (exec (.dec k0 k1 id) s =
        .next { s with port := .idle, answers := { op := 0b010#3, rsp := .error .unexpectedVersionError } :: s.answers } ↔
      (s.cfg.versionCheck = .either ∧ getVer id ≠ 4 ∧ getVer id ≠ 7) ∨
      (s.cfg.versionCheck = .exact ∧ getVer id ≠ 4))

/-- The round trip: DEC of what ENC answers for a valid sortable identifier answers that identifier, under every key,
every version check and whatever happened between the two requests (R124). -/
def Obligations.DecOfEncIsIdentity : Prop :=
  ∀ (s t : State) (k0 k1 : Word64) (id : Ident), getVer id = 7 → getVar id = 0b10 →
    xf (xf id k0 k1 4) k0 k1 7 = id ∧
    ∃ w, exec (.enc k0 k1 id) s = .next (s.respond 0b001#3 (.id w)) ∧
      exec (.dec k0 k1 w) t = .next (t.respond 0b010#3 (.id id))

/-- Whatever operand ENC or DEC does not refuse, ENC answers version 4 and variant 0b10, DEC version 7 and variant
0b10 (R125). -/
def Obligations.EncDecShape : Prop :=
  ∀ (s : State) (k0 k1 : Word64) (id : Ident),
    (versionRefused s.cfg.versionCheck 7 (getVer id) = false →
      ∃ w, exec (.enc k0 k1 id) s = .next (s.respond 0b001#3 (.id w)) ∧ getVer w = 4 ∧ getVar w = 0b10) ∧
    (versionRefused s.cfg.versionCheck 4 (getVer id) = false →
      ∃ w, exec (.dec k0 k1 id) s = .next (s.respond 0b010#3 (.id w)) ∧ getVer w = 7 ∧ getVar w = 0b10)

/-- Fields A and B are never altered by the transform; for a valid sortable operand only bits 127 to 76 can differ
(R126). -/
def Obligations.FieldsAandBUntouched : Prop :=
  ∀ (id : Ident) (k0 k1 : Word64) (n : BitVec 4),
    getA (xf id k0 k1 n) = getA id ∧ getB (xf id k0 k1 n) = getB id ∧
    (getVer id = 7 → getVar id = 0b10 → (xf id k0 k1 n).extractLsb' 0 76 = id.extractLsb' 0 76)

/-- What is exact about a wrong key: decoding the facade of a valid sortable identifier under another key gives the
identifier back exactly when the two masks agree, and everything but the timestamp is right under every key (R127, an
inference of the spec). -/
def Obligations.WrongKeyDecodesIffMasksAgree : Prop :=
  ∀ (id : Ident) (k0 k1 j0 j1 : Word64), getVer id = 7 → getVar id = 0b10 →
    (xf (xf id k0 k1 4) j0 j1 7 = id ↔ mask48 id k0 k1 = mask48 id j0 j1) ∧
    (xf (xf id k0 k1 4) j0 j1 7).extractLsb' 0 80 = id.extractLsb' 0 80

/-- Operands that are not valid: the round trip keeps everything but the two markers, ENC undoes ENC but for them, and
the two directions differ in the version marker alone (R128, an inference of the spec). -/
def Obligations.InvalidOperandsLoseTheirMarkers : Prop :=
  ∀ (id : Ident) (k0 k1 : Word64),
    xf (xf id k0 k1 4) k0 k1 7 = setVar (setVer id 7) 0b10 ∧
    xf (xf id k0 k1 4) k0 k1 4 = setVar (setVer id 4) 0b10 ∧
    setVer (xf id k0 k1 4) 7 = xf id k0 k1 7

/-- The key leaves ENC and DEC through the mask alone: two keys with one mask for an identifier give the same next
state, so neither the response nor anything the block keeps can tell them apart (R130, R204; decisions D7, D22). -/
def Obligations.KeyLeavesOnlyThroughTheMask : Prop :=
  ∀ (s : State) (id : Ident) (k0 k1 j0 j1 : Word64), mask48 id k0 k1 = mask48 id j0 j1 →
    exec (.enc k0 k1 id) s = exec (.enc j0 j1 id) s ∧ exec (.dec k0 k1 id) s = exec (.dec j0 j1 id) s

/-- Where the byte orders meet: mask bits 47 to 40 are XORed into byte 0 of the identifier, bits 7 to 0 into byte 5,
byte 6 and byte 8 change in their markers only, and the other bytes are copied (R46, an inference of the spec). -/
def Obligations.MaskMeetsTimestampBigEndian : Prop :=
  ∀ (id : Ident) (k0 k1 : Word64) (n : BitVec 4),
    (∀ j, j < 6 → idByte (xf id k0 k1 n) j = idByte id j ^^^ (mask48 id k0 k1).extractLsb' (8 * (5 - j)) 8) ∧
    idByte (xf id k0 k1 n) 6 = (n ++ (idByte id 6).extractLsb' 0 4 : BitVec 8) ∧
    idByte (xf id k0 k1 n) 8 = (0b10#2 ++ (idByte id 8).extractLsb' 0 6 : BitVec 8) ∧
    (∀ j, j < 16 → j = 7 ∨ 9 ≤ j → idByte (xf id k0 k1 n) j = idByte id j)

/-! ### The text codec -/

/-- PARSE of the text FMT answers for an identifier answers that identifier, for all 2^128 of them (R142). -/
def Obligations.ParseOfFmtIsIdentity : Prop :=
  ∀ (s t : State) (id : Ident), ∃ text, exec (.fmt id) s = .next (s.respond 0b100#3 (.text text)) ∧
    exec (.parse text) t = .next (t.respond 0b011#3 (.id id))

/-- FMT of what PARSE answers for a text is that text with `'A'` to `'F'` made lowercase (R143, an inference of the
spec). -/
def Obligations.FmtOfParseIsLowercase : Prop :=
  ∀ (s t : State) (text : List Byte) (id : Ident), exec (.parse text) s = .next (s.respond 0b011#3 (.id id)) →
    exec (.fmt id) t =
      .next (t.respond 0b100#3 (.text (text.map fun c => if 0x41 ≤ c.toNat ∧ c.toNat ≤ 0x46 then c + 0x20 else c)))

/-- PARSE answers an identifier exactly for a text of 36 bytes with a hyphen at offsets 8, 13, 18 and 23 and one of the
22 hexadecimal digits at each other offset; the identifier's nibbles are the digits' values; every other text answers
ParseError with no payload; nothing but the answer changes (R140, R192; decisions D9, D10, D11). -/
def Obligations.ParseAcceptsExactlyTheCanonicalText : Prop :=
  ∀ (s : State) (text : List Byte),
    (CanonicalText text → ∃ id,
      exec (.parse text) s =
        .next { s with port := .idle, answers := { op := 0b011#3, rsp := .id id } :: s.answers } ∧
      ∀ d, d < 32 → ∃ c, text[digitOffset d]? = some c ∧ hexval c = some (id.extractLsb' (124 - 4 * d) 4)) ∧
    (¬CanonicalText text →
      exec (.parse text) s =
        .next { s with port := .idle, answers := { op := 0b011#3, rsp := .error .parseError } :: s.answers })

/-- FMT completes on every identifier with 36 bytes: hyphens at the four offsets, the lowercase digit of each nibble at
that digit's offset, and nothing else changed (R141, R75; decision D11). -/
def Obligations.FmtRespondsTheCanonicalText : Prop :=
  ∀ (s : State) (id : Ident), ∃ text : List Byte,
    exec (.fmt id) s =
      .next { s with port := .idle, answers := { op := 0b100#3, rsp := .text text } :: s.answers } ∧
    text.length = 36 ∧ (∀ p ∈ [8, 13, 18, 23], text[p]? = some 0x2D) ∧
    ∀ d, d < 32 → text[digitOffset d]? = some
      (if (id.extractLsb' (124 - 4 * d) 4).toNat < 10 then BitVec.ofNat 8 (0x30 + (id.extractLsb' (124 - 4 * d) 4).toNat)
        else BitVec.ofNat 8 (0x57 + (id.extractLsb' (124 - 4 * d) 4).toNat))

/-! ### The monotonic generator -/

/-- A clock answer above `last_ms`: all three fields are written, one clock answer and one random answer are taken, and
the identifier of the new state is answered (R162). -/
def Obligations.GenStartsANewMillisecond : Prop :=
  ∀ (s : State) (now : Word64) (cs : List Word64) (rnd : BitVec 42) (rs : List (BitVec 42)),
    s.clock = now :: cs → s.random = rnd :: rs → s.gen.lastMs < now →
    exec .gen s =
      .next { s with
        gen := { lastMs := now, counter := 0, highRandom := rnd }, port := .idle, clock := cs, random := rs
        answers := { op := 0b101#3, rsp := .id (genId { lastMs := now, counter := 0, highRandom := rnd }) } :: s.answers }

/-- A clock answer equal to `last_ms` with the counter below its maximum: the counter goes up by one without wrapping,
the other two fields stay, no random answer is taken. With the counter at its maximum the increment would wrap, and the
request is held with `G` unchanged (R163). -/
def Obligations.GenCountsInTheSameMillisecond : Prop :=
  ∀ (s : State) (cs : List Word64), s.clock = s.gen.lastMs :: cs →
    (s.gen.counter ≠ 0xFFFFFFFF →
      exec .gen s =
        .next { s with
          gen := { s.gen with counter := s.gen.counter + 1 }, port := .idle, clock := cs
          answers := { op := 0b101#3, rsp := .id (genId { s.gen with counter := s.gen.counter + 1 }) } :: s.answers } ∧
      (s.gen.counter + 1).toNat = s.gen.counter.toNat + 1) ∧
    (s.gen.counter = 0xFFFFFFFF → exec .gen s = .next { s with port := .waitClock, clock := cs })

/-- A clock answer below `last_ms` is discarded: the step is exactly that of the answer `last_ms`, so `last_ms` and
`high_random` keep their values, and an identifier answered carries the old millisecond (R164). -/
def Obligations.GenClampsAClockThatWentBack : Prop :=
  ∀ (s : State) (now : Word64) (cs : List Word64), now < s.gen.lastMs →
    exec .gen { s with clock := now :: cs } = exec .gen { s with clock := s.gen.lastMs :: cs } ∧
    ∀ t, exec .gen { s with clock := now :: cs } = .next t →
      t.gen.lastMs = s.gen.lastMs ∧ t.gen.highRandom = s.gen.highRandom ∧
      (t.answers = s.answers ∨
        ∃ v, t.answers = { op := 0b101#3, rsp := .id v } :: s.answers ∧ getTs v = s.gen.lastMs.extractLsb' 0 48)

/-- GEN is held with `G` unchanged and no response: by counter exhaustion, one clock answer taken (R165); by the random
source, with the clock answer kept (R169, the keeping is the model's reading, assumption 5); by a clock that has not
answered (assumption 3). Nothing else in the state changes (R32; decisions D17, D18). -/
def Obligations.GenIsHeld : Prop :=
  (∀ (s : State) (now : Word64) (cs : List Word64), s.clock = now :: cs → now ≤ s.gen.lastMs →
    s.gen.counter = 0xFFFFFFFF → exec .gen s = .next { s with port := .waitClock, clock := cs }) ∧
  (∀ (s : State) (now : Word64) (cs : List Word64), s.clock = now :: cs → s.gen.lastMs < now → s.random = [] →
    exec .gen s = .next { s with port := .waitRandom now, clock := cs }) ∧
  (∀ s : State, s.clock = [] → exec .gen s = .next { s with port := .waitClock })

/-- A GEN that waits for the clock, whether its counter is exhausted or no answer had come, looks again: its step is that
of GEN in the same state. So the next clock answer completes it as a GEN that is just taken, unless that answer finds the
counter exhausted or, above `last_ms`, no random answer (R161 to R165). That each look is one step is the model's own
choice (assumption 12), as is the wait for a first answer (assumption 3). -/
def Obligations.HeldGenLooksAgainAtTheClock : Prop :=
  (∀ s : State, s.port = .waitClock → step s = exec .gen s) ∧
  (∀ (s : State) (now : Word64) (cs : List Word64), s.port = .waitClock → s.clock = now :: cs →
    (s.gen.lastMs < now → s.random ≠ []) → (now ≤ s.gen.lastMs → s.gen.counter ≠ 0xFFFFFFFF) →
    ∃ t, step s = .next t ∧ t.port = .idle ∧ t.clock = cs ∧ t.requests = s.requests ∧
      t.gen.lastMs = (if s.gen.lastMs < now then now else s.gen.lastMs) ∧
      t.answers = { op := 0b101#3, rsp := .id (genId t.gen) } :: s.answers)

/-- A GEN held by counter exhaustion stays held, `G` unchanged, through every clock answer at or below `last_ms`, and
completes at the first answer above it as the step of a new millisecond (R165, R226; decision D18). That each look at
the clock is one step and takes one answer is the model's own choice (assumption 12). -/
def Obligations.HeldGenCompletesAtTheFirstAnswerAbove : Prop :=
  ∀ (s : State) (low : List Word64) (now : Word64) (cs : List Word64) (rnd : BitVec 42) (rs : List (BitVec 42)),
    s.port = .waitClock → s.gen.counter = 0xFFFFFFFF → s.clock = low ++ now :: cs → (∀ x ∈ low, x ≤ s.gen.lastMs) →
    s.gen.lastMs < now → s.random = rnd :: rs →
    (∀ k, k ≤ low.length → core.run k s = .next { s with clock := low.drop k ++ now :: cs }) ∧
    core.run (low.length + 1) s =
      .next { s with
        gen := { lastMs := now, counter := 0, highRandom := rnd }, port := .idle, clock := cs, random := rs
        answers := { op := 0b101#3, rsp := .id (genId { lastMs := now, counter := 0, highRandom := rnd }) } :: s.answers }

/-- A GEN that waits for the random source completes with the first answer it gives and the clock answer it has
(R169; decision D17; the kept clock answer is the model's reading, assumption 5). -/
def Obligations.RandomAnswerEndsTheWait : Prop :=
  ∀ (s : State) (now : Word64) (rnd : BitVec 42) (rs : List (BitVec 42)),
    s.port = .waitRandom now → s.gen.lastMs < now → s.random = rnd :: rs →
    step s =
      .next { s with
        gen := { lastMs := now, counter := 0, highRandom := rnd }, port := .idle, random := rs
        answers := { op := 0b101#3, rsp := .id (genId { lastMs := now, counter := 0, highRandom := rnd }) } :: s.answers }

/-- While a GEN is held no later request is taken: a step of a held port either leaves it held, with `G` and the
answers unchanged, or completes that GEN with one answer; the queue of requests is the same either way (R32, R54;
decision D19). -/
def Obligations.HeldGenKeepsThePort : Prop :=
  ∀ s t : State, s.port ≠ .idle → step s = .next t →
    t.requests = s.requests ∧
    ((t.port ≠ .idle ∧ t.gen = s.gen ∧ t.answers = s.answers) ∨
      (t.port = .idle ∧ t.answers = { op := 0b101#3, rsp := .id (genId t.gen) } :: s.answers))

/-- The identifier of a generator state, byte by byte (R166, R70; the low 48 bits of `last_ms` are decision D16). -/
def Obligations.GenIdentifierBytes : Prop :=
  ∀ g : GenState,
    getTs (genId g) = g.lastMs.extractLsb' 0 48 ∧
    getA (genId g) = g.highRandom.extractLsb' 30 12 ∧
    getB (genId g) = (g.highRandom.extractLsb' 0 30 ++ g.counter : BitVec 62) ∧
    (∀ j, j < 6 → idByte (genId g) j = g.lastMs.extractLsb' (8 * (5 - j)) 8) ∧
    idByte (genId g) 6 = 0x70 ||| (g.highRandom.extractLsb' 38 4).setWidth 8 ∧
    idByte (genId g) 7 = g.highRandom.extractLsb' 30 8 ∧
    idByte (genId g) 8 = 0x80 ||| (g.highRandom.extractLsb' 24 6).setWidth 8 ∧
    (∀ j, j < 3 → idByte (genId g) (9 + j) = g.highRandom.extractLsb' (8 * (2 - j)) 8) ∧
    (∀ j, j < 4 → idByte (genId g) (12 + j) = g.counter.extractLsb' (8 * (3 - j)) 8)

/-- `last_ms` never decreases between resets: every step leaves it or writes a larger value, every move but reset
leaves it; and while the clock answers stay below 2^48, the timestamps of the identifiers GEN answers between two resets
never decrease, whatever was answered before (R168). -/
def Obligations.LastMsNeverDecreases : Prop :=
  (∀ s t : State, step s = .next t → t.gen.lastMs = s.gen.lastMs ∨ s.gen.lastMs < t.gen.lastMs) ∧
  (∀ (s t : State) (m : Move), m ≠ .reset → s.move m = some t → t.gen.lastMs = s.gen.lastMs) ∧
  (∀ s t : State, s.SmallClock → BetweenResets s t → ∃ new : List Answer, t.answers = new ++ s.answers ∧
    (genIds new).Pairwise fun newer older => getTs older ≤ getTs newer)

/-- The order of the generator's outputs is kept by every step, and by every move but reset whose clock answer is below
2^48 (R170). -/
def Obligations.GeneratorOrderIsKept : Prop :=
  (∀ s t : State, s.Ordered → step s = .next t → t.Ordered) ∧
  (∀ (s t : State) (m : Move), s.Ordered → m ≠ .reset → (∀ now, m = .clockAnswer now → now < msBound) →
    s.move m = some t → t.Ordered)

/-- Strict monotonicity: whatever the block does between two resets while every clock answer is below 2^48, each
identifier GEN answers in that time is greater, as an unsigned 128-bit number, than every one it answered earlier in that
time, whatever was answered before (R170). -/
def Obligations.GenOutputsStrictlyIncrease : Prop :=
  ∀ s t : State, s.SmallClock → BetweenResets s t → ∃ new : List Answer, t.answers = new ++ s.answers ∧
    (genIds new).Pairwise fun newer older => older < newer

/-- The counter never wraps while the millisecond stays the same: a step that leaves `last_ms` leaves the counter or
adds one to it and keeps the random bits, and a step that changes `last_ms` restarts the counter at 0 (R163, R165,
R175). -/
def Obligations.CounterNeverWrapsInAMillisecond : Prop :=
  ∀ s t : State, step s = .next t →
    (t.gen.lastMs = s.gen.lastMs →
      t.gen.highRandom = s.gen.highRandom ∧
      (t.gen.counter = s.gen.counter ∨ t.gen.counter.toNat = s.gen.counter.toNat + 1)) ∧
    (t.gen.lastMs ≠ s.gen.lastMs → t.gen.counter = 0)

/-- While the millisecond counts stay below 2^48, no GEN answers an identifier with timestamp 0 and counter 0, whatever
the state it starts from (R173; decision D15). -/
def Obligations.GenNeverAnswersTheZeroStart : Prop :=
  ∀ (s t : State) (v : Ident), s.SmallClock → step s = .next t →
    t.answers = { op := 0b101#3, rsp := .id v } :: s.answers → ¬(getTs v = 0 ∧ v.extractLsb' 0 32 = 0)

/-! ### The whole block -/

/-- The five pure operations and the reserved codes: the response is a function of the operands and the parameters
alone, so it repeats and depends on no state; PRF, PARSE, FMT and the reserved codes do not even read the parameters;
nothing but the answer changes (R21, R50, R109, R144, R146; decision D13). -/
def Obligations.PureResponsesDependOnOperandsAlone : Prop :=
  (∀ (c : Config) (i : Instr), i ≠ .gen → ∃ rsp, ∀ s : State, s.cfg = c →
    exec i s = .next { s with port := .idle, answers := { op := i.opcode, rsp := rsp } :: s.answers }) ∧
  (∀ i : Instr, (∀ k0 k1 id, i ≠ .enc k0 k1 id) → (∀ k0 k1 id, i ≠ .dec k0 k1 id) → i ≠ .gen →
    ∃ rsp, ∀ s : State, exec i s = .next { s with port := .idle, answers := { op := i.opcode, rsp := rsp } :: s.answers })

/-- GEN reads nothing but `G`, the clock and the random source: another queue of requests, another list of answers and
other parameters make the same step of `G` and the same identifier (R21, R174). -/
def Obligations.GenReadsOnlyItsInputs : Prop :=
  ∀ (s t : State) (c : Config) (rs : List Request) (as : List Answer), exec .gen s = .next t →
    ∃ new : List Answer, t.answers = new ++ s.answers ∧ t.cfg = s.cfg ∧ t.requests = s.requests ∧
      exec .gen { s with cfg := c, requests := rs, answers := as } =
        .next { t with cfg := c, requests := rs, answers := new ++ as }

/-- The two reserved codes answer IllegalOp with no payload and nothing else changed (R63, R195, R197; decision D4). -/
def Obligations.ReservedCodesAnswerIllegalOp : Prop :=
  ∀ s : State,
    exec .rsvd6 s = .next { s with port := .idle, answers := { op := 0b110#3, rsp := .error .illegalOp } :: s.answers } ∧
    exec .rsvd7 s = .next { s with port := .idle, answers := { op := 0b111#3, rsp := .error .illegalOp } :: s.answers }

/-- The frame of every step: the parameters stay; at most one request leaves the queue, one clock answer, one random
answer is taken; at most one answer is given; and only a GEN's answer comes with a change of `G` (R21, R25, R53;
decision D19). -/
def Obligations.StepFrame : Prop :=
  ∀ s t : State, step s = .next t →
    t.cfg = s.cfg ∧
    (t.requests = s.requests ∨ ∃ r, s.requests = r :: t.requests) ∧
    (t.clock = s.clock ∨ ∃ now, s.clock = now :: t.clock) ∧
    (t.random = s.random ∨ ∃ rnd, s.random = rnd :: t.random) ∧
    (t.answers = s.answers ∨ ∃ a, t.answers = a :: s.answers) ∧
    (t.gen ≠ s.gen → t.answers = { op := 0b101#3, rsp := .id (genId t.gen) } :: s.answers)

/-- The response record: the four errors have the codes 1 to 4; an `OK` response has status 0 and, in the one field of
its payload, the value responded; an error has its code and no payload; so a payload comes with status 0 alone, and then
there is exactly one (R62, R191, R197; decisions D5, D21). -/
def Obligations.ErrorResponsesHaveNoPayload : Prop :=
  (errorStatus .parseError = 1 ∧ errorStatus .unexpectedVersionError = 2 ∧ errorStatus .illegalOp = 3 ∧
    errorStatus .keyFormatError = 4) ∧
  (∀ v, responseRecord (.prf v) = { status := 0, prf := some v, id := none, text := none }) ∧
  (∀ v, responseRecord (.id v) = { status := 0, prf := none, id := some v, text := none }) ∧
  (∀ t, responseRecord (.text t) = { status := 0, prf := none, id := none, text := some t }) ∧
  (∀ e, responseRecord (.error e) = { status := errorStatus e, prf := none, id := none, text := none }) ∧
  ∀ r : Response,
    ((responseRecord r).status ≠ 0 →
      (responseRecord r).prf = none ∧ (responseRecord r).id = none ∧ (responseRecord r).text = none ∧
      ∃ e, r = .error e ∧ (responseRecord r).status.toNat < 5) ∧
    ((responseRecord r).status = 0 →
      [(responseRecord r).prf.isSome, (responseRecord r).id.isSome, (responseRecord r).text.isSome].count true = 1)

/-- Every answer a step adds is sound: a payload comes from its own operation and carries the markers of that
operation, ParseError comes from PARSE alone, UnexpectedVersionError from ENC and DEC alone and never under NONE,
IllegalOp from the reserved codes alone, and KeyFormatError from nothing (R66, R67, R125, R190 to R198). -/
def Obligations.AnswersStaySound : Prop :=
  ∀ s t : State, (∀ a ∈ s.answers, a.sound s.cfg) → step s = .next t → ∀ a ∈ t.answers, a.sound t.cfg

/-! ### Reset, invariants and runs -/

/-- After reset `G` is zero, the port is idle, and nothing is issued or answered (R33, R221; the zeros are decision
D14). That `State.reset` holds the parameters, at the defaults of R8, is the model's own choice (assumption 1; by R221
they are no state and reset leaves them). -/
def Obligations.ResetLeavesGZero : Prop :=
  State.reset.gen.lastMs = 0 ∧ State.reset.gen.counter = 0 ∧ State.reset.gen.highRandom = 0 ∧
  State.reset.port = .idle ∧ State.reset.requests = [] ∧ State.reset.answers = [] ∧
  State.reset.cfg.versionCheck = .noCheck ∧ State.reset.cfg.msgMax = none

/-- A reset from outside writes `G`, abandons a held GEN without a response, and changes nothing else, the parameters
among it (R220, R221; decision D24; what the agents still have in hand stays, assumption 8). -/
def Obligations.ResetMoveWritesGAlone : Prop :=
  ∀ s : State,
    s.move .reset =
      some { s with gen := { lastMs := 0, counter := 0, highRandom := 0 }, port := .idle }

/-- The invariant holds after reset, for every legal choice of the parameters (R8, R221). -/
def Obligations.InvariantHoldsAtReset : Prop :=
  State.reset.Inv ∧ ∀ c : Config, c.wf = true → (State.resetWith c).Inv

/-- Every step keeps the invariant: legal parameters, only requests a record can carry, and a GEN that waits for the
random source holds a clock answer above `last_ms` (R8, R109, R169). -/
def Obligations.InvariantIsKeptByEveryStep : Prop := ∀ s t : State, s.Inv → step s = .next t → t.Inv

/-- Every move of the agents keeps it too. A message longer than `MSG_MAX` cannot be issued; any other request is issued
behind those already issued, since the order of operations is the order in which the host issues requests; an answer of
the clock or of the random source comes behind those not yet taken; and nothing else changes (R25, R27, R53, R109, R220;
decisions D3, D8, D19; the lists are the model's own, assumptions 3, 4 and 6). -/
def Obligations.InvariantIsKeptByEveryMove : Prop :=
  (∀ (s t : State) (m : Move), s.Inv → s.move m = some t → t.Inv) ∧
  (∀ (s : State) (r : Request) (n : Nat), s.cfg.msgMax = some n → n < r.msg.length → s.move (.issue r) = none) ∧
  (∀ (s : State) (r : Request), (∀ n, s.cfg.msgMax = some n → r.msg.length ≤ n) →
    s.move (.issue r) = some { s with requests := s.requests ++ [r] }) ∧
  (∀ (s : State) (now : Word64), s.move (.clockAnswer now) = some { s with clock := s.clock ++ [now] }) ∧
  (∀ (s : State) (rnd : BitVec 42), s.move (.randomAnswer rnd) = some { s with random := s.random ++ [rnd] })

/-- The block never stops: in every state a run can reach, the next step has a next state; no error, no operand, no
reset leads to a fault or a refusal (R196, R201, R222). -/
def Obligations.ReachableStatesAlwaysStep : Prop :=
  ∀ s : State, Reachable s → ∃ t, step s = .next t

/-- A batch of requests none of which is a GEN is finished in as many steps as it has requests: each gets, in order,
the response its operation gives in any state with these parameters, and `G`, the clock and the random source are
untouched (R53, R223; decisions D1, D19). -/
def Obligations.PureBatchFinishes : Prop :=
  ∀ s : State, s.Inv → s.port = .idle → (∀ r ∈ s.requests, r.op ≠ 0b101#3) →
    ∃ new : List Answer,
      List.Forall₂ (fun r a => ∀ u : State, u.cfg = s.cfg →
        exec r.select u = .next { u with port := .idle, answers := a :: u.answers }) s.requests new ∧
      core.run s.requests.length s = .next { s with requests := [], answers := new.reverse ++ s.answers } ∧
      State.finished { s with requests := [], answers := new.reverse ++ s.answers }
end

