-- ==== Sys2Proof/Laws/Bytes.lean ====
section
/-! SUPPORT. Byte order (00_scope.md R10, 20_memory.md R41 to R44): the bytes of a little-endian and of a big-endian
value. -/

namespace Sys2Proof.Machine

theorem le_lt (s : List Byte) : le s < 256 ^ s.length := by
  induction s with
  | nil => simp [le]
  | cons b bs ih =>
    have := b.isLt
    rw [le, List.length_cons, Nat.pow_succ]
    omega

/-- Byte `j` of a little-endian value: element 0 is the least significant (R10). -/
theorem le_byte (s : List Byte) (j : Nat) : le s / 256 ^ j % 256 = (s[j]?.getD 0).toNat := by
  induction s generalizing j with
  | nil => simp [le]
  | cons b bs ih =>
    have := b.isLt
    cases j with
    | zero => simp [le]; omega
    | succ j =>
      rw [Nat.pow_succ, Nat.mul_comm, ← Nat.div_div_eq_div_mul, le, show (b.toNat + 256 * le bs) / 256 = le bs by omega,
        ih j]
      simp

@[simp] theorem leBytes_length (n v : Nat) : (leBytes n v).length = n := by
  induction n generalizing v with
  | zero => rfl
  | succ n ih => simp [leBytes, ih]

/-- `le_bytes_n` and `le` are inverse (R10). -/
theorem le_leBytes (n v : Nat) : le (leBytes n v) = v % 256 ^ n := by
  induction n generalizing v with
  | zero => simp [leBytes, le, Nat.mod_one]
  | succ n ih =>
    rw [leBytes, le, ih, Nat.pow_succ', Nat.mod_mul]
    simp

theorem be_append (s : List Byte) (b : Byte) : be (s ++ [b]) = 256 * be s + b.toNat := by
  simp [be]

theorem be_foldl (s : List Byte) (acc : Nat) :
    s.foldl (fun acc b => 256 * acc + b.toNat) acc = acc * 256 ^ s.length + be s := by
  induction s generalizing acc with
  | nil => simp [be]
  | cons b bs ih =>
    simp only [List.foldl_cons, be, List.length_cons]
    rw [ih, ih (256 * 0 + b.toNat)]
    ring

/-- Element 0 of a big-endian value is the most significant (R10). -/
theorem be_cons (b : Byte) (bs : List Byte) : be (b :: bs) = b.toNat * 256 ^ bs.length + be bs := by
  simpa [be] using be_foldl bs (256 * 0 + b.toNat)

theorem be_lt (s : List Byte) : be s < 256 ^ s.length := by
  induction s with
  | nil => simp [be]
  | cons b bs ih =>
    have := b.isLt
    rw [be_cons, List.length_cons, Nat.pow_succ]
    nlinarith

@[simp] theorem idBytes_length (id : Ident) : (idBytes id).length = 16 := by simp [idBytes]

theorem idByte_toNat (id : Ident) (i : Nat) : (idByte id i).toNat = id.toNat / 2 ^ (8 * (15 - i)) % 256 := by
  simp [idByte, Nat.shiftRight_eq_div_pow]

/-- The value of the first `k` bytes of an identifier. -/
theorem be_idBytes_take (id : Ident) (k : Nat) (hk : k ≤ 16) :
    be ((List.range k).map (idByte id)) = id.toNat / 2 ^ (128 - 8 * k) := by
  induction k with
  | zero =>
    have := id.isLt
    simp only [List.range_zero, List.map_nil, be, List.foldl_nil]
    omega
  | succ k ih =>
    rw [List.range_succ, List.map_append, List.map_singleton, be_append, ih (by omega), idByte_toNat,
      show 128 - 8 * k = 8 * (15 - k) + 8 by omega, show 128 - 8 * (k + 1) = 8 * (15 - k) by omega, Nat.pow_add,
      ← Nat.div_div_eq_div_mul]
    omega

/-- `ID = be(b)` (R41). -/
theorem be_idBytes (id : Ident) : be (idBytes id) = id.toNat := by
  have all := be_idBytes_take id 16 (Nat.le_refl 16)
  rwa [show 128 - 8 * 16 = 0 from rfl, Nat.pow_zero, Nat.div_one] at all

end Sys2Proof.Machine
end

