-- ==== Sys2Proof/Laws/Codec.lean ====
section
/-! SUPPORT. The codec's parts: digit characters, the digits of a text, and an identifier as the number its digits
spell (30_encoding.md R72 to R75). -/

namespace Sys2Proof.Machine

/-- `hexval(hexchar(n)) = n` (R74). -/
@[simp] theorem hexval_hexchar (n : Nibble) : hexval (hexchar n) = some n := by
  revert n; decide

/-- A character `hexval` knows is one of the 22 digit characters, and `hexchar` of its value is its lowercase form. -/
theorem hexchar_of_hexval {c : Byte} {n : Nibble} (h : hexval c = some n) :
    hexchar n = if 0x41 ≤ c.toNat ∧ c.toNat ≤ 0x46 then c + 0x20 else c := by
  have all : ∀ c : Byte, (hexval c).all fun n =>
      hexchar n == if 0x41 ≤ c.toNat ∧ c.toNat ≤ 0x46 then c + 0x20 else c := by decide
  have hc := all c
  rw [h] at hc
  exact eq_of_beq hc

/-- What reading the listed digits gives, digit by digit. -/
theorem readDigits_eq_some {text : List Byte} {ds : List Nat} {ns : List Nibble} :
    readDigits text ds = some ns ↔
      List.Forall₂ (fun d n => (text[digitOffset d]?).bind hexval = some n) ds ns := by
  induction ds generalizing ns with
  | nil => cases ns <;> simp [readDigits]
  | cons d ds ih =>
    cases ns with
    | nil =>
      simp only [readDigits, List.forall₂_cons_left_iff]
      split <;> simp
    | cons n ns =>
      rw [List.forall₂_cons, ← ih, readDigits]
      split
      · rename_i h1 h2; simp [h1, h2]
      · rename_i h1
        simp only [reduceCtorEq, false_iff, not_and]
        intro ha hb
        exact h1 n ns ha hb

theorem joinNibbles_append (ns : List Nibble) (n : Nibble) :
    joinNibbles (ns ++ [n]) = 16 * joinNibbles ns + n.toNat := by
  simp [joinNibbles]

theorem joinNibbles_lt (ns : List Nibble) : joinNibbles ns < 16 ^ ns.length := by
  induction ns using List.reverseRecOn with
  | nil => simp [joinNibbles]
  | append_singleton ns n ih =>
    have := n.isLt
    rw [joinNibbles_append, List.length_append, List.length_singleton, Nat.pow_succ]
    omega

/-- Digit `d` of the number its digits spell. -/
theorem joinNibbles_digit (ns : List Nibble) (d : Nat) (h : d < ns.length) :
    joinNibbles ns / 16 ^ (ns.length - 1 - d) % 16 = ns[d].toNat := by
  induction ns using List.reverseRecOn with
  | nil => simp at h
  | append_singleton ns n ih =>
    have hn := n.isLt
    rw [joinNibbles_append]
    simp only [List.length_append, List.length_singleton] at h ⊢
    by_cases hd : d = ns.length
    · subst hd
      simp
      omega
    · have hlt : d < ns.length := by omega
      rw [show ns.length + 1 - 1 - d = (ns.length - 1 - d) + 1 by omega, Nat.pow_succ, Nat.mul_comm _ 16, ← Nat.div_div_eq_div_mul,
        show (16 * joinNibbles ns + n.toNat) / 16 = joinNibbles ns by omega, ih hlt]
      simp [List.getElem_append_left, hlt]

theorem idNibble_toNat (id : Ident) (d : Nat) : (idNibble id d).toNat = id.toNat / 2 ^ (124 - 4 * d) % 16 := by
  simp [idNibble, Nat.shiftRight_eq_div_pow]

/-- An identifier is the number its 32 digits spell (R75). -/
theorem joinNibbles_idNibble (id : Ident) : joinNibbles ((List.range 32).map (idNibble id)) = id.toNat := by
  have key : ∀ k, k ≤ 32 → joinNibbles ((List.range k).map (idNibble id)) = id.toNat / 2 ^ (128 - 4 * k) := by
    intro k
    induction k with
    | zero =>
      have := id.isLt
      intro _
      simp only [List.range_zero, List.map_nil, joinNibbles, List.foldl_nil]
      omega
    | succ k ih =>
      intro hk
      rw [List.range_succ, List.map_append, List.map_singleton, joinNibbles_append, ih (by omega), idNibble_toNat,
        show 128 - 4 * k = (124 - 4 * k) + 4 by omega, show 128 - 4 * (k + 1) = 124 - 4 * k by omega, Nat.pow_add,
        ← Nat.div_div_eq_div_mul]
      omega
  have all := key 32 (Nat.le_refl 32)
  rwa [show 128 - 4 * 32 = 0 from rfl, Nat.pow_zero, Nat.div_one] at all

/-- An identifier spelt by 32 digits has those digits (R75). -/
theorem idNibble_joinNibbles (ns : List Nibble) (h : ns.length = 32) (d : Nat) (hd : d < ns.length) :
    idNibble (BitVec.ofNat 128 (joinNibbles ns)) d = ns[d] := by
  apply BitVec.eq_of_toNat_eq
  have lt : joinNibbles ns < 2 ^ 128 := by
    have := joinNibbles_lt ns
    rw [h] at this
    exact this
  rw [idNibble_toNat, BitVec.toNat_ofNat, Nat.mod_eq_of_lt lt, ← joinNibbles_digit ns d hd, h,
    show 124 - 4 * d = 4 * (32 - 1 - d) by omega, Nat.pow_mul]

/-- Two identifiers with the same 32 digits are equal. -/
theorem idNibble_ext {x y : Ident} (h : ∀ d, d < 32 → idNibble x d = idNibble y d) : x = y := by
  apply BitVec.eq_of_toNat_eq
  have same : (List.range 32).map (idNibble x) = (List.range 32).map (idNibble y) :=
    List.map_congr_left fun d hd => h d (List.mem_range.mp hd)
  rw [← joinNibbles_idNibble x, ← joinNibbles_idNibble y, same]

section Writing

variable {α : Type} (off : Nat → Nat) (f : Nat → α)

theorem foldl_set_length (ds : List Nat) (text : List α) :
    (ds.foldl (fun t d => t.set (off d) (f d)) text).length = text.length := by
  induction ds generalizing text with
  | nil => rfl
  | cons d ds ih => simp [ih]

/-- An offset nothing is written over keeps its character. -/
theorem foldl_set_other {ds : List Nat} {text : List α} {p : Nat} (h : ∀ d ∈ ds, off d ≠ p) :
    (ds.foldl (fun t d => t.set (off d) (f d)) text)[p]? = text[p]? := by
  induction ds generalizing text with
  | nil => rfl
  | cons d ds ih =>
    rw [List.foldl_cons, ih fun e he => h e (List.mem_cons_of_mem _ he),
      List.getElem?_set_ne (h d List.mem_cons_self)]

/-- An offset one digit is written over holds that digit. -/
theorem foldl_set_self {ds : List Nat} {text : List α} {d : Nat} (hd : d ∈ ds) (hl : off d < text.length)
    (inj : ∀ e ∈ ds, off e = off d → e = d) :
    (ds.foldl (fun t d => t.set (off d) (f d)) text)[off d]? = some (f d) := by
  induction ds generalizing text with
  | nil => simp at hd
  | cons e ds ih =>
    have inj' : ∀ x ∈ ds, off x = off d → x = d := fun x hx => inj x (List.mem_cons_of_mem _ hx)
    by_cases hm : d ∈ ds
    · exact ih hm (by simpa using hl) inj'
    · obtain rfl : d = e := by simpa [hm] using hd
      rw [List.foldl_cons, foldl_set_other off f fun x hx he => hm (inj' x hx he ▸ hx)]
      simp [hl]

end Writing

@[simp] theorem formatText_length (id : Ident) : (formatText id).length = 36 :=
  foldl_set_length _ _ _ _

/-- The character at the offset of digit `d` (R141). -/
theorem formatText_digit (id : Ident) (d : Nat) (h : d < 32) :
    (formatText id)[digitOffset d]? = some (hexchar (idNibble id d)) := by
  have inj : ∀ e < 32, ∀ d < 32, digitOffset e = digitOffset d → e = d := by decide
  have lt : ∀ d < 32, digitOffset d < 36 := by decide
  exact foldl_set_self digitOffset (fun d => hexchar (idNibble id d)) (List.mem_range.mpr h) (lt d h)
    fun e he => inj e (List.mem_range.mp he) d h

/-- The hyphens of a formatted text (R72). -/
theorem formatText_hyphen (id : Ident) (p : Nat) (h : p ∈ hyphenOffsets) : (formatText id)[p]? = some hyphen := by
  have ne : ∀ p ∈ hyphenOffsets, p < 36 ∧ ∀ d < 32, digitOffset d ≠ p := by decide
  rw [formatText, foldl_set_other digitOffset _ fun d hd => (ne p h).2 d (List.mem_range.mp hd),
    List.getElem?_replicate, if_pos (ne p h).1]

/-- Every offset of a text is a digit's or a hyphen's (R72, R75). -/
theorem offset_cases (p : Nat) (h : p < 36) : p ∈ hyphenOffsets ∨ ∃ d, d < 32 ∧ digitOffset d = p := by
  have all : ∀ p < 36, p ∈ hyphenOffsets ∨
      p - (decide (8 < p)).toNat - (decide (13 < p)).toNat - (decide (18 < p)).toNat - (decide (23 < p)).toNat < 32 ∧
      digitOffset (p - (decide (8 < p)).toNat - (decide (13 < p)).toNat - (decide (18 < p)).toNat -
        (decide (23 < p)).toNat) = p := by decide
  exact (all p h).imp_right fun hd => ⟨_, hd⟩

/-- The characters `hexval` knows are the 22 digits (R74). -/
theorem hexval_isSome (c : Byte) :
    (∃ n, hexval c = some n) ↔
      (0x30 ≤ c.toNat ∧ c.toNat ≤ 0x39) ∨ (0x41 ≤ c.toNat ∧ c.toNat ≤ 0x46) ∨ (0x61 ≤ c.toNat ∧ c.toNat ≤ 0x66) := by
  unfold hexval
  repeat' split
  all_goals simp
  all_goals omega

/-- What a text PARSE accepts looks like (R140): its length, its hyphens, and the value of each digit. -/
theorem parseText_eq_some {text : List Byte} {id : Ident} (h : parseText text = some id) :
    text.length = 36 ∧ hyphensPlaced text = true ∧
      ∀ d < 32, (text[digitOffset d]?).bind hexval = some (idNibble id d) := by
  unfold parseText at h
  split at h
  · rename_i placed
    refine ⟨placed.1, placed.2, fun d hd => ?_⟩
    obtain ⟨ns, hn, rfl⟩ := Option.map_eq_some_iff.mp h
    rw [readDigits_eq_some] at hn
    have len : ns.length = 32 := by rw [← hn.length_eq, List.length_range]
    rw [idNibble_joinNibbles ns len d (by omega)]
    simpa using (List.forall₂_iff_get.mp hn).2 d (by simpa using hd) (by omega)
  · exact absurd h (by simp)

end Sys2Proof.Machine
end

