-- ==== Sys2Proof/Laws/Ident.lean ====
section
/-! SUPPORT. The identifier's fields: reading a field of an assembled identifier, assembling an identifier from its
fields, and the order of the generator's identifiers (30_encoding.md R64, R65; 43_generator.md R166, R170). -/

namespace Sys2Proof.Machine

section Fields

variable (t : BitVec 48) (n : BitVec 4) (a : BitVec 12) (w : BitVec 2) (b : BitVec 62) (id : Ident)

/-- The value of an assembled identifier, field by field. -/
theorem makeId_toNat : (makeId t n a w b).toNat =
    t.toNat * 2 ^ 80 + n.toNat * 2 ^ 76 + a.toNat * 2 ^ 64 + w.toNat * 2 ^ 62 + b.toNat := by
  simp only [makeId, BitVec.toNat_append]
  rw [← Nat.shiftLeft_add_eq_or_of_lt n.isLt, ← Nat.shiftLeft_add_eq_or_of_lt a.isLt,
    ← Nat.shiftLeft_add_eq_or_of_lt w.isLt, ← Nat.shiftLeft_add_eq_or_of_lt b.isLt]
  simp only [Nat.shiftLeft_eq]
  omega

theorem getTs_toNat : (getTs id).toNat = id.toNat / 2 ^ 80 % 2 ^ 48 := by
  simp [getTs, Nat.shiftRight_eq_div_pow]

theorem getVer_toNat : (getVer id).toNat = id.toNat / 2 ^ 76 % 2 ^ 4 := by
  simp [getVer, Nat.shiftRight_eq_div_pow]

theorem getA_toNat : (getA id).toNat = id.toNat / 2 ^ 64 % 2 ^ 12 := by
  simp [getA, Nat.shiftRight_eq_div_pow]

theorem getVar_toNat : (getVar id).toNat = id.toNat / 2 ^ 62 % 2 ^ 2 := by
  simp [getVar, Nat.shiftRight_eq_div_pow]

theorem getB_toNat : (getB id).toNat = id.toNat % 2 ^ 62 := by
  simp [getB]

@[simp] theorem getTs_makeId : getTs (makeId t n a w b) = t := by
  apply BitVec.eq_of_toNat_eq
  rw [getTs_toNat, makeId_toNat]
  omega

@[simp] theorem getVer_makeId : getVer (makeId t n a w b) = n := by
  apply BitVec.eq_of_toNat_eq
  rw [getVer_toNat, makeId_toNat]
  omega

@[simp] theorem getA_makeId : getA (makeId t n a w b) = a := by
  apply BitVec.eq_of_toNat_eq
  rw [getA_toNat, makeId_toNat]
  omega

@[simp] theorem getVar_makeId : getVar (makeId t n a w b) = w := by
  apply BitVec.eq_of_toNat_eq
  rw [getVar_toNat, makeId_toNat]
  omega

@[simp] theorem getB_makeId : getB (makeId t n a w b) = b := by
  apply BitVec.eq_of_toNat_eq
  rw [getB_toNat, makeId_toNat]
  omega

/-- An identifier is its five fields: together they use all 128 bits (R64). -/
theorem makeId_fields : makeId (getTs id) (getVer id) (getA id) (getVar id) (getB id) = id := by
  apply BitVec.eq_of_toNat_eq
  rw [makeId_toNat, getTs_toNat, getVer_toNat, getA_toNat, getVar_toNat, getB_toNat]
  omega

/-- Replacing the version marker, in terms of the fields (R65). -/
theorem setVer_eq_makeId : setVer id n = makeId (getTs id) n (getA id) (getVar id) (getB id) := by
  apply BitVec.eq_of_toNat_eq
  have h := n.isLt
  have low : (id.extractLsb' 0 76).toNat < 2 ^ 76 := (id.extractLsb' 0 76).isLt
  rw [makeId_toNat, getTs_toNat, getA_toNat, getVar_toNat, getB_toNat]
  simp only [setVer, BitVec.toNat_append]
  rw [← Nat.shiftLeft_add_eq_or_of_lt h, ← Nat.shiftLeft_add_eq_or_of_lt low]
  simp only [Nat.shiftLeft_eq, BitVec.extractLsb'_toNat, Nat.shiftRight_eq_div_pow]
  omega

/-- Replacing the variant marker, in terms of the fields (R65). -/
theorem setVar_eq_makeId : setVar id w = makeId (getTs id) (getVer id) (getA id) w (getB id) := by
  apply BitVec.eq_of_toNat_eq
  have h := w.isLt
  have low : (id.extractLsb' 0 62).toNat < 2 ^ 62 := (id.extractLsb' 0 62).isLt
  rw [makeId_toNat, getTs_toNat, getVer_toNat, getA_toNat, getB_toNat]
  simp only [setVar, BitVec.toNat_append]
  rw [← Nat.shiftLeft_add_eq_or_of_lt h, ← Nat.shiftLeft_add_eq_or_of_lt low]
  simp only [Nat.shiftLeft_eq, BitVec.extractLsb'_toNat, Nat.shiftRight_eq_div_pow]
  omega

/-- Replacing the timestamp, in terms of the fields (R65). -/
theorem setTs_eq_makeId : setTs id t = makeId t (getVer id) (getA id) (getVar id) (getB id) := by
  apply BitVec.eq_of_toNat_eq
  have low : (id.extractLsb' 0 80).toNat < 2 ^ 80 := (id.extractLsb' 0 80).isLt
  rw [makeId_toNat, getVer_toNat, getA_toNat, getVar_toNat, getB_toNat]
  simp only [setTs, BitVec.toNat_append]
  rw [← Nat.shiftLeft_add_eq_or_of_lt low]
  simp only [Nat.shiftLeft_eq, BitVec.extractLsb'_toNat, Nat.shiftRight_eq_div_pow]
  omega

/-- Bytes 0 to 5 are the timestamp, big-endian (R64). -/
theorem idByte_makeId_ts (j : Nat) (h : j < 6) : idByte (makeId t n a w b) j = t.extractLsb' (8 * (5 - j)) 8 := by
  apply BitVec.eq_of_toNat_eq
  have := t.isLt; have := n.isLt; have := a.isLt; have := w.isLt; have := b.isLt
  rw [idByte_toNat, makeId_toNat, BitVec.extractLsb'_toNat, Nat.shiftRight_eq_div_pow]
  interval_cases j <;> omega

/-- Byte 6 is the version marker over the top of field A (R64). -/
theorem idByte_makeId_six : idByte (makeId t n a w b) 6 = n ++ a.extractLsb' 8 4 := by
  apply BitVec.eq_of_toNat_eq
  have := t.isLt; have := n.isLt; have := a.isLt; have := w.isLt; have := b.isLt
  rw [idByte_toNat, makeId_toNat, BitVec.toNat_append, ← Nat.shiftLeft_add_eq_or_of_lt (a.extractLsb' 8 4).isLt,
    BitVec.extractLsb'_toNat, Nat.shiftRight_eq_div_pow, Nat.shiftLeft_eq]
  omega

/-- Byte 7 is the rest of field A (R64). -/
theorem idByte_makeId_seven : idByte (makeId t n a w b) 7 = a.extractLsb' 0 8 := by
  apply BitVec.eq_of_toNat_eq
  have := t.isLt; have := n.isLt; have := a.isLt; have := w.isLt; have := b.isLt
  rw [idByte_toNat, makeId_toNat, BitVec.extractLsb'_toNat, Nat.shiftRight_eq_div_pow]
  omega

/-- Byte 8 is the variant marker over the top of field B (R64). -/
theorem idByte_makeId_eight : idByte (makeId t n a w b) 8 = w ++ b.extractLsb' 56 6 := by
  apply BitVec.eq_of_toNat_eq
  have := t.isLt; have := n.isLt; have := a.isLt; have := w.isLt; have := b.isLt
  rw [idByte_toNat, makeId_toNat, BitVec.toNat_append, ← Nat.shiftLeft_add_eq_or_of_lt (b.extractLsb' 56 6).isLt,
    BitVec.extractLsb'_toNat, Nat.shiftRight_eq_div_pow, Nat.shiftLeft_eq]
  omega

/-- Bytes 9 to 15 are the rest of field B, big-endian (R64). -/
theorem idByte_makeId_tail (j : Nat) (h : 9 ≤ j) (h' : j < 16) :
    idByte (makeId t n a w b) j = b.extractLsb' (8 * (15 - j)) 8 := by
  apply BitVec.eq_of_toNat_eq
  have := t.isLt; have := n.isLt; have := a.isLt; have := w.isLt; have := b.isLt
  rw [idByte_toNat, makeId_toNat, BitVec.extractLsb'_toNat, Nat.shiftRight_eq_div_pow]
  interval_cases j <;> omega

end Fields

section Transform

variable (id : Ident) (k0 k1 : Word64) (n : BitVec 4)

@[simp] theorem getTs_xf : getTs (xf id k0 k1 n) = getTs id ^^^ mask48 id k0 k1 := getTs_makeId ..
@[simp] theorem getVer_xf : getVer (xf id k0 k1 n) = n := getVer_makeId ..
@[simp] theorem getA_xf : getA (xf id k0 k1 n) = getA id := getA_makeId ..
@[simp] theorem getVar_xf : getVar (xf id k0 k1 n) = variantMarker := getVar_makeId ..
@[simp] theorem getB_xf : getB (xf id k0 k1 n) = getB id := getB_makeId ..

/-- The PRF message is made of A and B alone (R68). -/
theorem prfMsg_congr {x y : Ident} (ha : getA x = getA y) (hb : getB x = getB y) : prfMsg x = prfMsg y := by
  rw [prfMsg, prfMsg, ha, hb]

/-- The transform does not change what its mask is made of (R68, R124). -/
@[simp] theorem mask48_xf (j0 j1 : Word64) : mask48 (xf id k0 k1 n) j0 j1 = mask48 id j0 j1 := by
  rw [mask48, mask48, prfMsg_congr (getA_xf id k0 k1 n) (getB_xf id k0 k1 n)]

end Transform

section Generated

variable (g g' : GenState)

@[simp] theorem getTs_genId : getTs (genId g) = g.lastMs.extractLsb' 0 48 := getTs_makeId ..
@[simp] theorem getVer_genId : getVer (genId g) = verSortable := getVer_makeId ..
@[simp] theorem getA_genId : getA (genId g) = (genBits g).extractLsb' 62 12 := getA_makeId ..
@[simp] theorem getVar_genId : getVar (genId g) = variantMarker := getVar_makeId ..
@[simp] theorem getB_genId : getB (genId g) = (genBits g).extractLsb' 0 62 := getB_makeId ..

theorem genBits_toNat : (genBits g).toNat = g.highRandom.toNat * 2 ^ 32 + g.counter.toNat := by
  simp only [genBits, BitVec.toNat_append]
  rw [← Nat.shiftLeft_add_eq_or_of_lt g.counter.isLt, Nat.shiftLeft_eq]

/-- The value of a generated identifier in terms of `G` (R166). -/
theorem genId_toNat : (genId g).toNat =
    g.lastMs.toNat % 2 ^ 48 * 2 ^ 80 + 7 * 2 ^ 76 + (g.highRandom.toNat * 2 ^ 32 + g.counter.toNat) / 2 ^ 62 * 2 ^ 64 +
      2 * 2 ^ 62 + (g.highRandom.toNat * 2 ^ 32 + g.counter.toNat) % 2 ^ 62 := by
  have h := g.highRandom.isLt
  have c := g.counter.isLt
  have ver : verSortable.toNat = 7 := rfl
  have var : variantMarker.toNat = 2 := rfl
  rw [genId, makeId_toNat, ver, var]
  simp only [BitVec.extractLsb'_toNat, genBits_toNat, Nat.shiftRight_eq_div_pow]
  omega

/-- The counter is the last four bytes of the identifier (R70). -/
theorem genId_counter : (genId g).extractLsb' 0 32 = g.counter := by
  apply BitVec.eq_of_toNat_eq
  have h := g.highRandom.isLt
  have c := g.counter.isLt
  rw [BitVec.extractLsb'_toNat, genId_toNat, Nat.shiftRight_eq_div_pow]
  omega

/-- A later millisecond below 2^48 makes a larger identifier, whatever the counter and the random bits (R170). -/
theorem genId_lt_of_lastMs (h : g.lastMs < g'.lastMs) (small : g'.lastMs.toNat < 2 ^ 48) : genId g < genId g' := by
  have := g.highRandom.isLt; have := g.counter.isLt; have := g'.highRandom.isLt; have := g'.counter.isLt
  rw [BitVec.lt_def] at *
  rw [genId_toNat, genId_toNat]
  omega

/-- A larger counter makes a larger identifier in the same millisecond (R170). -/
theorem genId_lt_of_counter (ms : g.lastMs = g'.lastMs) (hr : g.highRandom = g'.highRandom)
    (h : g.counter < g'.counter) : genId g < genId g' := by
  have := g.highRandom.isLt; have := g.counter.isLt; have := g'.counter.isLt
  rw [BitVec.lt_def] at *
  rw [genId_toNat, genId_toNat, ← ms, ← hr]
  omega

end Generated

end Sys2Proof.Machine
end

