-- ==== Sys2Proof/Laws/State.lean ====
section
/-! SUPPORT. One lemma per field per update of the state, so that no later proof unfolds a record update. -/

namespace Sys2Proof.Machine

variable (s : State) (op : OpCode) (rsp : Response) (e : ErrorCode) (g : GenState) (c : Config) (n w : Nat)

@[simp] theorem State.respond_cfg : (s.respond op rsp).cfg = s.cfg := rfl
@[simp] theorem State.respond_gen : (s.respond op rsp).gen = s.gen := rfl
@[simp] theorem State.respond_port : (s.respond op rsp).port = .idle := rfl
@[simp] theorem State.respond_requests : (s.respond op rsp).requests = s.requests := rfl
@[simp] theorem State.respond_clock : (s.respond op rsp).clock = s.clock := rfl
@[simp] theorem State.respond_random : (s.respond op rsp).random = s.random := rfl
@[simp] theorem State.respond_answers : (s.respond op rsp).answers = { op := op, rsp := rsp } :: s.answers := rfl

@[simp] theorem State.raise_eq : s.raise op e = s.respond op (.error e) := rfl

@[simp] theorem State.emit_cfg : (s.emit g).cfg = s.cfg := rfl
@[simp] theorem State.emit_gen : (s.emit g).gen = g := rfl
@[simp] theorem State.emit_port : (s.emit g).port = .idle := rfl
@[simp] theorem State.emit_requests : (s.emit g).requests = s.requests := rfl
@[simp] theorem State.emit_clock : (s.emit g).clock = s.clock := rfl
@[simp] theorem State.emit_random : (s.emit g).random = s.random := rfl
@[simp] theorem State.emit_answers :
    (s.emit g).answers = { op := 0b101#3, rsp := .id (genId g) } :: s.answers := rfl

@[simp] theorem State.resetWith_cfg : (State.resetWith c).cfg = c := rfl
@[simp] theorem State.resetWith_gen : (State.resetWith c).gen = GenState.reset := rfl
@[simp] theorem State.resetWith_port : (State.resetWith c).port = .idle := rfl
@[simp] theorem State.resetWith_requests : (State.resetWith c).requests = [] := rfl
@[simp] theorem State.resetWith_clock : (State.resetWith c).clock = [] := rfl
@[simp] theorem State.resetWith_random : (State.resetWith c).random = [] := rfl
@[simp] theorem State.resetWith_answers : (State.resetWith c).answers = [] := rfl

@[simp] theorem State.withFetchWord_cfg : (s.withFetchWord n w).cfg = s.cfg := rfl
@[simp] theorem State.withFetchWord_gen : (s.withFetchWord n w).gen = s.gen := rfl
@[simp] theorem State.withFetchWord_port : (s.withFetchWord n w).port = .idle := rfl
@[simp] theorem State.withFetchWord_requests :
    (s.withFetchWord n w).requests = tableRequest n w :: s.requests := rfl
@[simp] theorem State.withFetchWord_clock : (s.withFetchWord n w).clock = s.clock := rfl
@[simp] theorem State.withFetchWord_random : (s.withFetchWord n w).random = s.random := rfl
@[simp] theorem State.withFetchWord_answers : (s.withFetchWord n w).answers = s.answers := rfl

/-- The most recent answer of a state, if there is one. -/
theorem State.respond_head : (s.respond op rsp).answers.head? = some { op := op, rsp := rsp } := rfl

end Sys2Proof.Machine
end

