-- ==== Sys2Proof/Laws/Generator.lean ====
section
/-! SUPPORT. What one look of GEN can do, said once: it always answers a next state, and that state is one of four. -/

namespace Sys2Proof.Machine

variable {s t : State} {now : Word64}

/-- The step of GEN for a clock answer (R160): a new millisecond, a wait for the random source, a hold, or a count. -/
theorem genWith_cases (h : genWith now s = .next t) :
    (s.gen.lastMs < now ∧ ∃ rnd rest, s.random = rnd :: rest ∧
      t = { s with random := rest }.emit { lastMs := now, counter := 0, highRandom := rnd }) ∨
    (s.gen.lastMs < now ∧ s.random = [] ∧ t = { s with port := .waitRandom now }) ∨
    (now ≤ s.gen.lastMs ∧ s.gen.counter = counterMax ∧ t = { s with port := .waitClock }) ∨
    (now ≤ s.gen.lastMs ∧ s.gen.counter ≠ counterMax ∧ t = s.emit { s.gen with counter := s.gen.counter + 1 }) := by
  unfold genWith at h
  split at h
  · split at h
    · rename_i hlt _ hr
      exact .inr (.inl ⟨hlt, hr, by injection h with h; exact h.symm⟩)
    · rename_i hlt _ rnd rest hr
      exact .inl ⟨hlt, rnd, rest, hr, by injection h with h; exact h.symm⟩
  · rename_i hge
    have hle : now ≤ s.gen.lastMs := BitVec.not_lt.mp hge
    split at h
    · rename_i hc
      exact .inr (.inr (.inl ⟨hle, hc, by injection h with h; exact h.symm⟩))
    · rename_i hc
      exact .inr (.inr (.inr ⟨hle, hc, by injection h with h; exact h.symm⟩))

/-- One look at the clock: no answer yet, or the step for the next answer. -/
theorem genLook_cases (h : genLook s = .next t) :
    (s.clock = [] ∧ t = { s with port := .waitClock }) ∨
    ∃ now rest, s.clock = now :: rest ∧ genWith now { s with clock := rest } = .next t := by
  unfold genLook at h
  split at h
  · rename_i hc
    exact .inl ⟨hc, by injection h with h; exact h.symm⟩
  · rename_i now rest hc
    exact .inr ⟨now, rest, hc, h⟩

theorem genWith_next (now : Word64) (s : State) : ∃ t, genWith now s = .next t := by
  unfold genWith
  repeat' split
  all_goals exact ⟨_, rfl⟩

theorem genLook_next (s : State) : ∃ t, genLook s = .next t := by
  unfold genLook
  split
  · exact ⟨_, rfl⟩
  · exact genWith_next ..

/-- A new millisecond (R162). -/
theorem genWith_newMs {rnd : BitVec 42} {rest : List (BitVec 42)} (h : s.gen.lastMs < now)
    (hr : s.random = rnd :: rest) :
    genWith now s = .next ({ s with random := rest }.emit { lastMs := now, counter := 0, highRandom := rnd }) := by
  simp [genWith, h, hr]

/-- The random source has not answered (R169). -/
theorem genWith_waitRandom (h : s.gen.lastMs < now) (hr : s.random = []) :
    genWith now s = .next { s with port := .waitRandom now } := by
  simp [genWith, h, hr]

/-- The counter is exhausted (R165). -/
theorem genWith_hold (h : now ≤ s.gen.lastMs) (hc : s.gen.counter = counterMax) :
    genWith now s = .next { s with port := .waitClock } := by
  simp [genWith, BitVec.not_lt.mpr h, hc]

/-- The same millisecond, or a clock that went back (R163, R164). -/
theorem genWith_count (h : now ≤ s.gen.lastMs) (hc : s.gen.counter ≠ counterMax) :
    genWith now s = .next (s.emit { s.gen with counter := s.gen.counter + 1 }) := by
  simp [genWith, BitVec.not_lt.mpr h, hc]

/-- A look that finds an answer is the step for it (R161). -/
theorem genLook_cons {rest : List Word64} (h : s.clock = now :: rest) :
    genLook s = genWith now { s with clock := rest } := by
  simp [genLook, h]

/-- A look that finds no answer waits. -/
theorem genLook_nil (h : s.clock = []) : genLook s = .next { s with port := .waitClock } := by
  simp [genLook, h]

/-- GEN adds answers in front and reads none: over other answers it makes the same step (R21). -/
theorem genWith_adds_answers (h : genWith now s = .next t) : ∃ new, t.answers = new ++ s.answers ∧
    ∀ as, genWith now { s with answers := as } = .next { t with answers := new ++ as } := by
  rcases genWith_cases h with ⟨hl, rnd, rest, hr, rfl⟩ | ⟨hl, hr, rfl⟩ | ⟨hle, hc, rfl⟩ | ⟨hle, hc, rfl⟩
  · exact ⟨[_], rfl, fun as => genWith_newMs (s := { s with answers := as }) hl hr⟩
  · exact ⟨[], rfl, fun as => genWith_waitRandom (s := { s with answers := as }) hl hr⟩
  · exact ⟨[], rfl, fun as => genWith_hold (s := { s with answers := as }) hle hc⟩
  · exact ⟨[_], rfl, fun as => genWith_count (s := { s with answers := as }) hle hc⟩

theorem genLook_adds_answers (h : genLook s = .next t) : ∃ new, t.answers = new ++ s.answers ∧
    ∀ as, genLook { s with answers := as } = .next { t with answers := new ++ as } := by
  rcases genLook_cases h with ⟨hc, rfl⟩ | ⟨now, rest, hc, hw⟩
  · exact ⟨[], rfl, fun as => genLook_nil (s := { s with answers := as }) hc⟩
  · obtain ⟨new, hn, replay⟩ := genWith_adds_answers hw
    exact ⟨new, hn, fun as => (genLook_cons (s := { s with answers := as }) hc).trans (replay as)⟩

/-- Below its maximum the counter does not wrap (R163, R175). -/
theorem counter_succ_toNat {c : BitVec 32} (h : c ≠ counterMax) : (c + 1).toNat = c.toNat + 1 := by
  have hn : c.toNat ≠ 4294967295 := fun e => h (BitVec.eq_of_toNat_eq e)
  have := c.isLt
  rw [BitVec.toNat_add, show (1 : BitVec 32).toNat = 1 from rfl]
  omega

end Sys2Proof.Machine
end

