-- ==== Sys2Proof/Laws/PerInstr.lean ====
section
/-! SUPPORT. Laws of the instruction as syntax, one lemma per constructor. -/

namespace Sys2Proof.Laws.Select

/-- The record an instruction is encoded to selects that instruction: no field it reads is dropped, and its code is
its own (30_encoding.md R60, R61). -/
def Statement (i : Instr) : Prop := (encode i).select = i

theorem prf (k0 k1 : Word64) (msg : List Byte) : Statement (.prf k0 k1 msg) := rfl
theorem enc (k0 k1 : Word64) (id : Ident) : Statement (.enc k0 k1 id) := rfl
theorem dec (k0 k1 : Word64) (id : Ident) : Statement (.dec k0 k1 id) := rfl
theorem parse (text : List Byte) : Statement (.parse text) := rfl
theorem fmt (id : Ident) : Statement (.fmt id) := rfl
theorem gen : Statement .gen := rfl
theorem rsvd6 : Statement .rsvd6 := rfl
theorem rsvd7 : Statement .rsvd7 := rfl

end Sys2Proof.Laws.Select
end

