-- ==== Sys2Proof/Laws/Port.lean ====
section
/-! SUPPORT. What an instruction and a step of the machine can do, said once. -/

namespace Sys2Proof.Machine

variable {s t : State}

/-- Every instruction but GEN ends in its response, and changes nothing else (R21, R50). -/
theorem exec_of_ne_gen {i : Instr} (h : i ≠ .gen) (s : State) :
    ∃ rsp, exec i s = .next (s.respond i.opcode rsp) := by
  cases i with
  | gen => exact absurd rfl h
  | prf k0 k1 msg => exact ⟨_, rfl⟩
  | enc k0 k1 id =>
    simp only [exec, execEnc]
    split <;> exact ⟨_, rfl⟩
  | dec k0 k1 id =>
    simp only [exec, execDec]
    split <;> exact ⟨_, rfl⟩
  | parse text =>
    simp only [exec, execParse]
    split <;> exact ⟨_, rfl⟩
  | fmt id => exact ⟨_, rfl⟩
  | rsvd6 => exact ⟨_, rfl⟩
  | rsvd7 => exact ⟨_, rfl⟩

/-- Every instruction answers a next state. -/
theorem exec_next (i : Instr) (s : State) : ∃ t, exec i s = .next t := by
  by_cases h : i = .gen
  · subst h
    exact genLook_next s
  · obtain ⟨_, h⟩ := exec_of_ne_gen h s
    exact ⟨_, h⟩

/-- What a step that answers a next state did: a held GEN went on, nothing was there to do, or a request was taken. -/
theorem step_cases {s t : State} (h : step s = .next t) :
    (s.port = .waitClock ∧ genLook s = .next t) ∨
    (∃ now, s.port = .waitRandom now ∧ genWith now s = .next t) ∨
    (s.port = .idle ∧ s.requests = [] ∧ t = s) ∨
    (s.port = .idle ∧ ∃ r rest i, s.requests = r :: rest ∧ decode s.cfg r = .ok i ∧
      exec i { s with requests := rest } = .next t) := by
  unfold step serve at h
  split at h
  · rename_i hp
    exact .inl ⟨hp, h⟩
  · rename_i now hp
    exact .inr (.inl ⟨now, hp, h⟩)
  · rename_i hp
    split at h
    · rename_i hr
      exact .inr (.inr (.inl ⟨hp, hr, by injection h with h; exact h.symm⟩))
    · rename_i r rest hr
      split at h
      · rename_i i hd
        exact .inr (.inr (.inr ⟨hp, r, rest, i, hr, hd, h⟩))
      · exact absurd h (by simp)

/-- An idle port with nothing issued stays as it is (R200). -/
theorem step_idle {s : State} (hp : s.port = .idle) (hr : s.requests = []) : step s = .next s := by
  simp [step, serve, hp, hr]

theorem step_waitClock {s : State} (hp : s.port = .waitClock) : step s = genLook s := by
  simp [step, serve, hp]

theorem step_waitRandom {s : State} {now : Word64} (hp : s.port = .waitRandom now) : step s = genWith now s := by
  simp [step, serve, hp]

/-- A decoded instruction is the one the record selects. -/
theorem decode_ok {c : Config} {r : Request} {i : Instr} (h : decode c r = .ok i) :
    i = r.select ∧ i.wf c = true := by
  unfold decode at h
  split at h
  · rename_i hw
    injection h with h
    exact ⟨h.symm, h ▸ hw⟩
  · exact absurd h (by simp)

theorem step_request {i : Instr} {r : Request} {rest : List Request} (hp : s.port = .idle) (hr : s.requests = r :: rest)
    (hd : decode s.cfg r = .ok i) : step s = exec i { s with requests := rest } := by
  simp [step, serve, hp, hr, hd]

/-- An instruction reads no answer given before: over other answers it makes the same step (R21, R50). -/
theorem exec_adds_answers {i : Instr} (h : exec i s = .next t) : ∃ new, t.answers = new ++ s.answers ∧
    ∀ as, exec i { s with answers := as } = .next { t with answers := new ++ as } := by
  cases i with
  | gen => exact genLook_adds_answers h
  | enc k0 k1 id =>
    simp only [exec, execEnc] at h ⊢
    split at h <;> rename_i hv <;> injection h with h <;> subst h <;> exact ⟨[_], rfl, fun as => by simp [hv]; rfl⟩
  | dec k0 k1 id =>
    simp only [exec, execDec] at h ⊢
    split at h <;> rename_i hv <;> injection h with h <;> subst h <;> exact ⟨[_], rfl, fun as => by simp [hv]; rfl⟩
  | parse text =>
    simp only [exec, execParse] at h ⊢
    split at h <;> injection h with h <;> subst h <;> exact ⟨[_], rfl, fun as => rfl⟩
  | _ =>
    injection h with h
    subst h
    exact ⟨[_], rfl, fun _ => rfl⟩

/-- So does every step: it adds its answers in front of those given before, and reads none of them. -/
theorem step_adds_answers (h : step s = .next t) : ∃ new, t.answers = new ++ s.answers ∧
    ∀ as, step { s with answers := as } = .next { t with answers := new ++ as } := by
  rcases step_cases h with ⟨hp, h⟩ | ⟨now, hp, h⟩ | ⟨hp, hr, rfl⟩ | ⟨hp, r, rest, i, hr, hd, he⟩
  · obtain ⟨new, hn, replay⟩ := genLook_adds_answers h
    exact ⟨new, hn, fun as => (step_waitClock (s := { s with answers := as }) hp).trans (replay as)⟩
  · obtain ⟨new, hn, replay⟩ := genWith_adds_answers h
    exact ⟨new, hn, fun as => (step_waitRandom (s := { s with answers := as }) hp).trans (replay as)⟩
  · exact ⟨[], rfl, fun as => step_idle (s := { t with answers := as }) hp hr⟩
  · obtain ⟨new, hn, replay⟩ := exec_adds_answers he
    exact ⟨new, hn, fun as => (step_request (s := { s with answers := as }) hp hr hd).trans (replay as)⟩

/-- `k + 1` steps are one step and then `k` (for `Host.Core.run`). -/
theorem run_succ {s t : State} (k : Nat) (h : step s = .next t) :
    core.run (k + 1) s = core.run k t := by
  have hs : core.step s = .next t := h
  refine (Host.Core.run.eq_2 core s k).trans ?_
  rw [hs]

/-- No steps leave the state as it is. -/
theorem run_zero (s : State) : core.run 0 s = .next s := rfl

end Sys2Proof.Machine
end

