-- ==== Sys2Proof/Laws/Prf.lean ====
section
/-! SUPPORT. The PRF's parts: how a message is cut into blocks, and the number of rounds it costs
(40_prf.md R103, R105, R107; 70_reset_and_hazards.md R238). -/

namespace Sys2Proof.Machine

@[simp] theorem sipBlocks_length (msg : List Byte) : (sipBlocks msg).length = msg.length / 8 := by simp [sipBlocks]

theorem sipBlock_toNat (msg : List Byte) (i : Nat) :
    (sipBlock msg i).toNat = le ((msg.drop (8 * i)).take 8) := by
  have lt := le_lt ((msg.drop (8 * i)).take 8)
  have len : ((msg.drop (8 * i)).take 8).length ≤ 8 := by simp
  have pow : 256 ^ ((msg.drop (8 * i)).take 8).length ≤ 256 ^ 8 := Nat.pow_le_pow_right (by omega) len
  rw [sipBlock, BitVec.toNat_ofNat, Nat.mod_eq_of_lt (by omega)]

/-- The final block as a sum: the length byte sits above every trailing byte (R105). -/
theorem sipLast_toNat (msg : List Byte) :
    (sipLast msg).toNat = le (msg.drop (8 * (msg.length / 8))) + (msg.length % 256) * 2 ^ 56 := by
  have lt := le_lt (msg.drop (8 * (msg.length / 8)))
  have len : (msg.drop (8 * (msg.length / 8))).length ≤ 7 := by rw [List.length_drop]; omega
  have pow : 256 ^ (msg.drop (8 * (msg.length / 8))).length ≤ 256 ^ 7 := Nat.pow_le_pow_right (by omega) len
  have low : le (msg.drop (8 * (msg.length / 8))) < 2 ^ 56 := by omega
  rw [sipLast, BitVec.toNat_ofNat, Nat.or_comm, ← Nat.shiftLeft_add_eq_or_of_lt low, Nat.shiftLeft_eq,
    Nat.mod_eq_of_lt (by omega)]
  omega

/-- Compression with its two rounds written out (R104). -/
theorem sipCompress_eq (v : SipWords) (m : Word64) :
    sipCompress v m =
      { sipround (sipround { v with v3 := v.v3 ^^^ m }) with
        v0 := (sipround (sipround { v with v3 := v.v3 ^^^ m })).v0 ^^^ m } := rfl

/-- The full blocks and the final block are compressed alike (R105, R107). -/
theorem prf_eq_foldl (msg : List Byte) (k0 k1 : Word64) :
    prf msg k0 k1 = sipFinalize ((sipBlocks msg ++ [sipLast msg]).foldl sipCompress (sipInit k0 k1)) := by
  rw [prf, List.foldl_append, List.foldl_cons, List.foldl_nil]

/-- A rotation moves the bits that leave the top back in at the bottom and loses none (R108). -/
theorem rotateLeft_injective {x y : Word64} (r : Nat) (hr : r < 64) (h : x.rotateLeft r = y.rotateLeft r) : x = y := by
  have back : ∀ z : Word64, (z.rotateLeft r).rotateRight r = z := by
    intro z
    ext i hi
    simp only [BitVec.getElem_rotateRight, BitVec.getElem_rotateLeft, Nat.mod_eq_of_lt hr]
    by_cases low : i < 64 - r
    · simp [low]
    · have : i - (64 - r) < r := by omega
      simp [low, this, show 64 - r + (i - (64 - r)) = i by omega]
  rw [← back x, h, back y]

section Rounds

/-- `n` rounds, counted. -/
def countRounds : Nat → SipWords × Nat → SipWords × Nat
  | 0, v => v
  | n + 1, v => countRounds n (sipround v.1, v.2 + 1)

/-- Compression, its rounds counted. -/
def countCompress (v : SipWords × Nat) (m : Word64) : SipWords × Nat :=
  let w := countRounds Config.cRounds ({ v.1 with v3 := v.1.v3 ^^^ m }, v.2)
  ({ w.1 with v0 := w.1.v0 ^^^ m }, w.2)

/-- The PRF with the number of rounds it applied. -/
def countPrf (msg : List Byte) (k0 k1 : Word64) : Word64 × Nat :=
  let v := countCompress ((sipBlocks msg).foldl countCompress (sipInit k0 k1, 0)) (sipLast msg)
  let w := countRounds Config.dRounds ({ v.1 with v2 := v.1.v2 ^^^ 0xFF }, v.2)
  (w.1.v0 ^^^ w.1.v1 ^^^ w.1.v2 ^^^ w.1.v3, w.2)

theorem countRounds_eq (n : Nat) (v : SipWords × Nat) : countRounds n v = (siprounds n v.1, v.2 + n) := by
  induction n generalizing v with
  | zero => rfl
  | succ n ih => rw [countRounds, ih, siprounds]; ext1 <;> simp; omega

theorem countCompress_eq (v : SipWords × Nat) (m : Word64) :
    countCompress v m = (sipCompress v.1 m, v.2 + Config.cRounds) := by
  simp [countCompress, sipCompress, countRounds_eq]

theorem countCompress_foldl (ms : List Word64) (v : SipWords × Nat) :
    ms.foldl countCompress v = (ms.foldl sipCompress v.1, v.2 + Config.cRounds * ms.length) := by
  induction ms generalizing v with
  | nil => simp
  | cons m ms ih =>
    rw [List.foldl_cons, ih, countCompress_eq, List.foldl_cons, List.length_cons, Nat.mul_succ]
    ext1 <;> simp; omega

/-- A message of `n` bytes costs `2 (n div 8 + 1) + 4` rounds (R107, R238), and counting them changes nothing. -/
theorem countPrf_eq (msg : List Byte) (k0 k1 : Word64) :
    countPrf msg k0 k1 = (prf msg k0 k1, 2 * (msg.length / 8 + 1) + 4) := by
  simp only [countPrf, prf, sipFinalize, countRounds_eq, countCompress_eq, countCompress_foldl, sipBlocks_length,
    Config.cRounds, Config.dRounds]
  ext1 <;> simp; omega

end Rounds

end Sys2Proof.Machine
end

