-- ==== Sys2Proof/Machine/Assembler.lean ====
section
/-! DEFINITION. The line of text that stands for a request in programs and test vectors (30_encoding.md R77). It is a
way of writing requests down and has no meaning of its own: no step reads it. -/

namespace Sys2Proof.Machine

/-- `n` lowercase hexadecimal digits of a number. -/
def asmDigits (n v : Nat) : List Byte := (List.range n).map fun d => hexchar (BitVec.ofNat 4 (v / 16 ^ (n - 1 - d)))

/-- A 64-bit hexadecimal number, `0x` and 16 digits, and the separator after it. -/
def asmWord (k : Word64) : List Byte := [0x30, 0x78] ++ asmDigits 16 k.toNat ++ [0x2C, 0x20]

/-- Two-digit hexadecimal bytes in message order, `[]` for the empty message. -/
def asmBytes : List Byte → List Byte
  | [] => [0x5B, 0x5D]
  | b :: bs => asmDigits 2 b.toNat ++ bs.flatMap fun c => 0x20 :: asmDigits 2 c.toNat

/-- The line of an instruction; the reserved codes have no mnemonic and no line. -/
def asmLine : Instr → Option (List Byte)
  | .prf k0 k1 msg => some ([0x50, 0x52, 0x46, 0x20] ++ asmWord k0 ++ asmWord k1 ++ asmBytes msg)
  | .enc k0 k1 id => some ([0x45, 0x4E, 0x43, 0x20] ++ asmWord k0 ++ asmWord k1 ++ formatText id)
  | .dec k0 k1 id => some ([0x44, 0x45, 0x43, 0x20] ++ asmWord k0 ++ asmWord k1 ++ formatText id)
  | .parse text => some ([0x50, 0x41, 0x52, 0x53, 0x45, 0x20, 0x22] ++ text ++ [0x22])
  | .fmt id => some ([0x46, 0x4D, 0x54, 0x20] ++ formatText id)
  | .gen => some [0x47, 0x45, 0x4E]
  | .rsvd6 => none
  | .rsvd7 => none

end Sys2Proof.Machine
end

