-- ==== Sys2Proof/Tests/Slice0.lean ====
section
/-! SUPPORT. Tests, every expected value from spec/ (95_test_vectors.md unless another file is named), and for each
statement with hypotheses a witness that meets them together. -/

namespace Sys2Proof.Tests

open Sys2Proof Sys2Proof.Machine

/-! ### Helpers -/

/-- The characters of a string as ASCII bytes. -/
def ascii (s : String) : List Byte := s.toList.map fun c => BitVec.ofNat 8 c.toNat

/-- The state a step answers, if it answers one. -/
def nextOf : Host.Outcome State Fault Refusal → Option State
  | .next t => some t
  | .fault _ => none
  | .refused _ => none

/-- The newest answer of an outcome. -/
def answerOf (o : Host.Outcome State Fault Refusal) : Option Answer := (nextOf o).bind fun t => t.answers.head?

/-- Part B's keys and identifiers. -/
def rk0 : Word64 := 0x0706050403020100
def rk1 : Word64 := 0x0f0e0d0c0b0a0908
def idE : Ident := 0x00000000000070008000000000000000
def idV1 : Ident := 0x018f2d9f9a2a7def8c3f7b1a2c4d5e6f
def encV1 : Ident := 0x399714620f9f4def8c3f7b1a2c4d5e6f
def textV1 : List Byte := ascii "018f2d9f-9a2a-7def-8c3f-7b1a2c4d5e6f"

/-- A state from its parameters, generator state, clock and random answers. -/
def mk (check : VersionCheck) (g : GenState) (clock : List Word64) (random : List (BitVec 42)) : State :=
  { State.reset with cfg := { versionCheck := check, msgMax := some 12 }, gen := g, clock := clock, random := random }

/-- Reset with requests issued. -/
def asked (rs : List Request) : State := { State.reset with requests := rs }

/-- The start state of sequence G2: the counter one below its maximum. -/
def nearFull : GenState := { lastMs := 5, counter := 0xfffffffe, highRandom := 1 }

/-- The counter at its maximum. -/
def full : GenState := { lastMs := 5, counter := 0xffffffff, highRandom := 1 }

/-! ### WellFormed: the one check refuses a message longer than `MSG_MAX` (00_scope.md R8, 40_prf.md R109) -/

theorem test_wf_message_of_msgMax :
    (Instr.prf 0 0 (List.replicate 12 0)).wf { versionCheck := .noCheck, msgMax := some 12 } = true := by decide

theorem test_wf_refuses_longer_message :
    (Instr.prf 0 0 (List.replicate 13 0)).wf { versionCheck := .noCheck, msgMax := some 12 } = false ∧
    Request.carriable { versionCheck := .noCheck, msgMax := some 12 }
      { Request.blank 0b100 with msg := List.replicate 13 0 } = false := by decide

theorem test_wf_refuses_small_msgMax : Config.wf { versionCheck := .noCheck, msgMax := some 11 } = false := by decide

/-! ### Decoding: records written out from 30_encoding.md R60 and R61 -/

theorem test_decode_prf : decode Config.default
    { op := 0b000, k0 := rk0, k1 := rk1, id := idE, msg := [0x61, 0x62, 0x63], text := [0x78] } =
    .ok (.prf rk0 rk1 [0x61, 0x62, 0x63]) := by decide

theorem test_decode_enc : decode Config.default
    { op := 0b001, k0 := rk0, k1 := rk1, id := idV1, msg := [0], text := [0x78] } = .ok (.enc rk0 rk1 idV1) := by decide

theorem test_decode_dec : decode Config.default
    { op := 0b010, k0 := rk0, k1 := rk1, id := encV1, msg := [0], text := [0x78] } = .ok (.dec rk0 rk1 encV1) := by
  decide

theorem test_decode_parse : decode Config.default
    { op := 0b011, k0 := rk0, k1 := rk1, id := idV1, msg := [0], text := [0x30, 0x2d] } = .ok (.parse [0x30, 0x2d]) := by
  decide

theorem test_decode_fmt : decode Config.default
    { op := 0b100, k0 := rk0, k1 := rk1, id := idV1, msg := [0], text := [0x78] } = .ok (.fmt idV1) := by decide

theorem test_decode_gen : decode Config.default
    { op := 0b101, k0 := 0x1234, k1 := 0, id := idV1, msg := [0, 1], text := [0x78] } = .ok .gen := by decide

theorem test_decode_rsvd6 : decode Config.default
    { op := 0b110, k0 := 0x1234, k1 := 0, id := idV1, msg := [0, 1], text := [0x78] } = .ok .rsvd6 := by decide

theorem test_decode_rsvd7 : decode Config.default
    { op := 0b111, k0 := 0x1234, k1 := 0, id := idV1, msg := [0, 1], text := [0x78] } = .ok .rsvd7 := by decide

theorem test_decode_rejects_by_name : decode { versionCheck := .noCheck, msgMax := some 12 }
    { Request.blank 0b000 with msg := List.replicate 13 0 } = .error .messageTooLong := by decide

/-! ### PRF (A1, B1, B3) -/

theorem test_prf_empty : prf [] rk0 rk1 = 0x726fdb47dd0e0e31 := by decide

theorem test_prf_tail_after_full_block :
    answerOf (exec (.prf rk0 rk1 [0, 1, 2, 3, 4, 5, 6, 7, 8]) State.reset) =
      some { op := 0b000, rsp := .prf 0x9e0082df0ba9e4b0 } := by decide

theorem test_prf_one_byte : prf [0] rk0 rk1 = 0x74f839c593dc67fd := by decide

theorem test_sipround_row_8 :
    sipround { v0 := 0x0123456789abcdef, v1 := 0xfedcba9876543210, v2 := 0x0f1e2d3c4b5a6978, v3 := 0x8796a5b4c3d2e1f0 } =
      { v0 := 0x33001123eeddccfd, v1 := 0x1d0b375d48a3fad5, v2 := 0x88eb2b8cff61c426, v3 := 0x177dca9a711bacff } := by
  decide

/-! ### The identifier (B4, B5) and the raw key (A2) -/

theorem test_fields_V1 : getTs idV1 = 0x018f2d9f9a2a ∧ getVer idV1 = 7 ∧ getA idV1 = 0xdef ∧ getVar idV1 = 0b10 ∧
    getB idV1 = 0x0c3f7b1a2c4d5e6f ∧ prfMsg idV1 = [0x0d, 0xef, 0x0c, 0x3f, 0x7b, 0x1a, 0x2c, 0x4d, 0x5e, 0x6f] := by
  decide

theorem test_genId_row_4 : genId { lastMs := 0x018f2d9f9a2a, counter := 0, highRandom := 0x37bcf0fdec6 } =
    0x018f2d9f9a2a7def8f0fdec600000000 := by decide

theorem test_raw_key : keyOfRaw [0, 1, 2, 3, 4, 5, 6, 7, 8, 9, 10, 11, 12, 13, 14, 15] = .ok (rk0, rk1) := by decide

/-! ### ENC and DEC (B6, B7) -/

theorem test_enc_V1 : answerOf (exec (.enc rk0 rk1 idV1) State.reset) = some { op := 0b001, rsp := .id encV1 } := by
  decide

theorem test_enc_exact_refuses_4 : answerOf (exec (.enc rk0 rk1 encV1) (mk .exact GenState.reset [] [])) =
    some { op := 0b001, rsp := .error .unexpectedVersionError } := by decide

theorem test_dec_V1 : answerOf (exec (.dec rk0 rk1 encV1) State.reset) = some { op := 0b010, rsp := .id idV1 } := by
  decide

theorem test_dec_either_takes_7 : answerOf (exec (.dec rk0 rk1 idV1) (mk .either GenState.reset [] [])) =
    some { op := 0b010, rsp := .id 0x399714620f9f7def8c3f7b1a2c4d5e6f } := by decide

/-! ### PARSE and FMT (B8, worked examples of 42_codec.md) -/

theorem test_parse_mixed_case :
    answerOf (exec (.parse (ascii "018F2D9F-9a2a-7DEF-8c3f-7b1a2c4d5e6F")) State.reset) =
      some { op := 0b011, rsp := .id idV1 } := by decide

theorem test_parse_g_at_offset_7 : answerOf (exec (.parse (ascii "018f2d9g-9a2a-7def-8c3f-7b1a2c4d5e6f")) State.reset) =
    some { op := 0b011, rsp := .error .parseError } := by decide

theorem test_fmt_example : answerOf (exec (.fmt 0x0123456789abcdef0123456789abcdef) State.reset) =
    some { op := 0b100, rsp := .text (ascii "01234567-89ab-cdef-0123-456789abcdef") } := by decide

/-! ### GEN (B9) -/

theorem test_gen_new_millisecond : nextOf (exec .gen (mk .noCheck GenState.reset [1000] [0x2aaaaaaaaaa])) =
    some { mk .noCheck { lastMs := 1000, counter := 0, highRandom := 0x2aaaaaaaaaa } [] [] with
      answers := [{ op := 0b101, rsp := .id 0x0000000003e87aaaaaaaaaaa00000000 }] } := by decide

theorem test_gen_clock_behind : nextOf (exec .gen (mk .noCheck nearFull [4] [])) =
    some { mk .noCheck full [] [] with
      answers := [{ op := 0b101, rsp := .id 0x000000000005700080000001ffffffff }] } := by decide

/-! ### Reserved codes (B10) and the status codes (60_exceptions.md R191) -/

theorem test_rsvd6 : answerOf (exec .rsvd6 State.reset) = some { op := 0b110, rsp := .error .illegalOp } := by decide

theorem test_rsvd7 : answerOf (exec .rsvd7 State.reset) = some { op := 0b111, rsp := .error .illegalOp } := by decide

theorem test_status_codes : errorStatus .parseError = 1 ∧ errorStatus .unexpectedVersionError = 2 ∧
    errorStatus .illegalOp = 3 ∧ errorStatus .keyFormatError = 4 := by decide

/-! ### The written form of a request (worked example of 41_mask_transform.md R120) -/

theorem test_asm_enc : asmLine (.enc rk0 rk1 idV1) =
    some (ascii "ENC 0x0706050403020100, 0x0f0e0d0c0b0a0908, 018f2d9f-9a2a-7def-8c3f-7b1a2c4d5e6f") := by decide

theorem test_asm_prf : asmLine (.prf rk0 rk1 [0x61, 0x62, 0x63]) =
    some (ascii "PRF 0x0706050403020100, 0x0f0e0d0c0b0a0908, 61 62 63") := by decide

/-! ### Witnesses: one for each statement with hypotheses, one for each clause where a statement has several -/

/-- DecodeOfEncodeIsTheInstruction: a well-formed instruction at the edge of `MSG_MAX`. -/
theorem witness_wellFormed : ∃ (c : Config) (i : Instr), c.wf = true ∧ i.wf c = true ∧ c.msgMax = some 12 ∧
    i = .prf rk0 rk1 (List.replicate 12 0xff) :=
  ⟨{ versionCheck := .exact, msgMax := some 12 }, _, by decide, by decide, rfl, rfl⟩

/-- EncodeOfDecodeClearsUnreadFields: a record that decodes and has unread fields set. -/
theorem witness_decodes : ∃ r i, decode Config.default r = .ok i ∧ r ≠ r.readFields ∧ encode i = r.readFields :=
  ⟨{ Request.blank 0b101 with k0 := 0x1234 }, .gen, by decide, by decide, by decide⟩

/-- UnreadFieldsHaveNoEffect: two different records with the same read fields (B10). -/
theorem witness_unreadFields : ∃ r r' : Request, r ≠ r' ∧ r.readFields = r'.readFields :=
  ⟨{ Request.blank 0b100 with id := idV1, k0 := 1 }, { Request.blank 0b100 with id := idV1, k1 := 2 }, by decide,
    by decide⟩

/-- StepRunsTheDecodedRequest. -/
theorem witness_stepRuns : ∃ (s : State) (r : Request) (rest : List Request) (i : Instr), s.port = .idle ∧
    s.requests = r :: rest ∧ decode s.cfg r = .ok i :=
  ⟨asked [Request.blank 0b110], _, [], .rsvd6, rfl, rfl, rfl⟩

/-- FetchWordRunsItsInstruction, and the step it speaks of. -/
theorem witness_fetchWord : decodeTableWord 8 0b111 = some .rsvd7 ∧
    answerOf (step (State.reset.withFetchWord 8 0b111)) = some { op := 0b111, rsp := .error .illegalOp } := by decide

/-- NothingToDoChangesNothing, clause by clause. -/
theorem witness_nothingToDo :
    (∃ s : State, s.port = .idle ∧ s.requests = []) ∧ (∃ s : State, s.port = .waitClock ∧ s.clock = []) ∧
    (∃ (s : State) (now : Word64), s.port = .waitRandom now ∧ s.gen.lastMs < now ∧ s.random = []) :=
  ⟨⟨State.reset, rfl, rfl⟩, ⟨{ State.reset with port := .waitClock }, rfl, rfl⟩,
    ⟨{ State.reset with port := .waitRandom 1 }, 1, rfl, by decide, rfl⟩⟩

/-- PrfBlocksAreLittleEndian: the one full block of an 8-byte message (B3, row 8). -/
theorem witness_fullBlock : sipBlocks [0, 1, 2, 3, 4, 5, 6, 7] = [0x0706050403020100] := by decide

/-- PrfFinalBlockHoldsTailAndLength: no tail, a tail of 1 and a tail of 7 (B3, rows 8, 9 and 15). -/
theorem witness_finalBlock : sipLast [0, 1, 2, 3, 4, 5, 6, 7] = 0x0800000000000000 ∧
    sipLast [0, 1, 2, 3, 4, 5, 6, 7, 8] = 0x0900000000000008 ∧
    sipLast [0, 1, 2, 3, 4, 5, 6, 7, 8, 9, 10, 11, 12, 13, 14] = 0x0f0e0d0c0b0a0908 := by decide

/-- PrfIsTheWrittenAlgorithm: the block list of a message of 8 bytes at its first and its last index, and past it. -/
theorem witness_blockList : ∃ msg : List Byte, msg.length / 8 = 1 ∧
    (sipBlocks msg ++ [sipLast msg])[0]? = some 0x0706050403020100 ∧
    (sipBlocks msg ++ [sipLast msg])[1]? = some 0x0800000000000000 ∧ (sipBlocks msg ++ [sipLast msg])[2]? = none :=
  ⟨[0, 1, 2, 3, 4, 5, 6, 7], by decide⟩

/-- SiproundIsInjective: the hypothesis holds of a quadruple and itself. -/
theorem witness_sameRound : ∃ v w : SipWords, sipround v = sipround w :=
  ⟨{ v0 := 1, v1 := 0, v2 := 0, v3 := 0 }, { v0 := 1, v1 := 0, v2 := 0, v3 := 0 }, rfl⟩

/-- RawKeyIsTwoLittleEndianWords: a raw key of 16 bytes, and one of 15 (the edge of the other clause). -/
theorem witness_rawKey : (rawOfKey rk0 rk1).length = 16 ∧ ((rawOfKey rk0 rk1).take 15).length ≠ 16 ∧
    keyOfRaw ((rawOfKey rk0 rk1).take 15) = .error .keyFormatError := by decide

/-- EncRespondsTheFacade, DecRespondsTheSortable, EncDecShape: not refused under the strictest check. -/
theorem witness_notRefused : versionRefused .exact 7 (getVer idV1) = false ∧
    versionRefused .exact 4 (getVer encV1) = false ∧ versionRefused .either 4 (getVer idV1) = false ∧
    versionRefused .noCheck 7 (getVer 0) = false := by decide

/-- VersionCheckRefusals: both sides of each clause, at the cells of B7's table. -/
theorem witness_versionCheck :
    (∀ n : BitVec 4, versionRefused .either 7 n = decide (n ≠ 4 ∧ n ≠ 7)) ∧
    (∀ n : BitVec 4, versionRefused .exact 7 n = decide (n ≠ 7)) ∧
    (∀ n : BitVec 4, versionRefused .exact 4 n = decide (n ≠ 4)) ∧
    answerOf (exec (.enc rk0 rk1 0x018f2d9f9a2a1defcc3f7b1a2c4d5e6f) (mk .either GenState.reset [] [])) =
      some { op := 0b001, rsp := .error .unexpectedVersionError } ∧
    answerOf (exec (.dec rk0 rk1 idV1) (mk .exact GenState.reset [] [])) =
      some { op := 0b010, rsp := .error .unexpectedVersionError } := by decide

/-- DecOfEncIsIdentity, FieldsAandBUntouched, WrongKeyDecodesIffMasksAgree: a valid sortable identifier; and two keys
whose masks for it differ (B6), two whose masks agree. -/
theorem witness_validSortable : getVer idV1 = 7 ∧ getVar idV1 = 0b10 ∧
    mask48 idV1 rk0 rk1 ≠ mask48 idV1 0x0123456789abcdef 0xfedcba9876543210 ∧
    mask48 idV1 rk0 rk1 = mask48 (setVer idV1 4) rk0 rk1 := by decide

/-- KeyLeavesOnlyThroughTheMask. -/
theorem witness_sameMask : ∃ k0 k1 j0 j1, mask48 idE k0 k1 = mask48 idE j0 j1 := ⟨rk0, rk1, rk0, rk1, rfl⟩

/-- FmtOfParseIsLowercase: a text PARSE accepts, with an upper-case digit in it. -/
theorem witness_parsed : exec (.parse (ascii "018F2d9f-9a2a-7def-8c3f-7b1a2c4d5e6f")) State.reset =
    .next (State.reset.respond 0b011#3 (.id idV1)) := by
  have accepted : parseText (ascii "018F2d9f-9a2a-7def-8c3f-7b1a2c4d5e6f") = some idV1 := by decide
  simp only [exec, execParse, accepted]
  rfl

/-- ParseAcceptsExactlyTheCanonicalText: a canonical text, and one that is not for its length alone. -/
theorem witness_canonical : CanonicalText textV1 ∧ ¬CanonicalText (textV1 ++ [0x0A]) := by
  refine ⟨⟨by decide, by decide, fun d hd => ?_⟩, fun h => absurd h.1 (by decide)⟩
  interval_cases d <;> exact ⟨_, rfl, by decide⟩

/-- GenStartsANewMillisecond, at the smallest answer above `last_ms` and at the largest. -/
theorem witness_newMillisecond : ∃ s t : State, s.clock = [6] ∧ s.random = [0] ∧ s.gen.lastMs < 6 ∧
    t.clock = [0xffffffffffffffff] ∧ t.random = [0] ∧ t.gen.lastMs < 0xffffffffffffffff :=
  ⟨mk .noCheck full [6] [0], mk .noCheck full [0xffffffffffffffff] [0], rfl, rfl, by decide, rfl, rfl, by decide⟩

/-- GenCountsInTheSameMillisecond: a counter below its maximum, and at it. -/
theorem witness_sameMillisecond : ∃ s t : State, s.clock = s.gen.lastMs :: [] ∧ s.gen.counter ≠ 0xFFFFFFFF ∧
    t.clock = t.gen.lastMs :: [] ∧ t.gen.counter = 0xFFFFFFFF :=
  ⟨mk .noCheck nearFull [5] [], mk .noCheck full [5] [], rfl, by decide, rfl, rfl⟩

/-- GenClampsAClockThatWentBack. -/
theorem witness_clockBehind : ∃ (s : State) (now : Word64), now < s.gen.lastMs ∧
    (nextOf (exec .gen { s with clock := [now] })).isSome :=
  ⟨mk .noCheck nearFull [] [], 4, by decide, by decide⟩

/-- GenIsHeld, clause by clause. -/
theorem witness_held : (∃ (s : State) (now : Word64) (cs : List Word64), s.clock = now :: cs ∧ now ≤ s.gen.lastMs ∧
      s.gen.counter = 0xFFFFFFFF) ∧
    (∃ (s : State) (now : Word64) (cs : List Word64), s.clock = now :: cs ∧ s.gen.lastMs < now ∧ s.random = []) ∧
    (∃ s : State, s.clock = []) :=
  ⟨⟨mk .noCheck full [5] [], 5, [], rfl, by decide, rfl⟩, ⟨mk .noCheck full [6] [], 6, [], rfl, by decide, rfl⟩,
    ⟨State.reset, rfl⟩⟩

/-- HeldGenLooksAgainAtTheClock: a GEN that found no clock answer, then one that counts and one that starts a
millisecond. -/
theorem witness_looksAgain : ∃ s t : State, s.port = .waitClock ∧ s.clock = [5] ∧ (s.gen.lastMs < 5 → s.random ≠ []) ∧
    (5 ≤ s.gen.lastMs → s.gen.counter ≠ 0xFFFFFFFF) ∧ t.port = .waitClock ∧ t.clock = [6] ∧
    (t.gen.lastMs < 6 → t.random ≠ []) ∧ (6 ≤ t.gen.lastMs → t.gen.counter ≠ 0xFFFFFFFF) :=
  ⟨{ mk .noCheck nearFull [5] [] with port := .waitClock }, { mk .noCheck full [6] [0] with port := .waitClock }, rfl, rfl,
    by decide, by decide, rfl, rfl, by decide, by decide⟩

/-- HeldGenCompletesAtTheFirstAnswerAbove: request 2 of sequence G2. -/
theorem witness_holdEnds : ∃ (s : State) (low : List Word64), s.port = .waitClock ∧ s.gen.counter = 0xFFFFFFFF ∧
    low = [5, 4] ∧ s.clock = low ++ 6 :: [] ∧ (∀ x ∈ low, x ≤ s.gen.lastMs) ∧ s.gen.lastMs < 6 ∧ s.random = 0 :: [] :=
  ⟨{ mk .noCheck full [5, 4, 6] [0] with port := .waitClock }, [5, 4], rfl, rfl, rfl, rfl, by simp [mk, full],
    by decide, rfl⟩

/-- RandomAnswerEndsTheWait, and the identifier it answers (B9, sequence G2, last row). -/
theorem witness_randomEnds : ∃ s : State, s.port = .waitRandom 6 ∧ s.gen.lastMs < 6 ∧ s.random = 0 :: [] ∧
    answerOf (step s) = some { op := 0b101, rsp := .id 0x00000000000670008000000000000000 } :=
  ⟨{ mk .noCheck full [] [0] with port := .waitRandom 6 }, rfl, by decide, rfl, by decide⟩

/-- HeldGenKeepsThePort: a held port that stays held, and one that completes. -/
theorem witness_heldPort : ∃ s t u v : State, s.port ≠ .idle ∧ step s = .next t ∧ t.port ≠ .idle ∧ u.port ≠ .idle ∧
    step u = .next v ∧ v.port = .idle :=
  ⟨{ mk .noCheck full [5] [] with port := .waitClock }, _, { mk .noCheck full [6] [0] with port := .waitClock }, _,
    by decide, rfl, by decide, by decide, rfl, rfl⟩

/-- LastMsNeverDecreases, GenOutputsStrictlyIncrease: the span after a reset of a block that has answered a GEN, in
which GEN answers twice, below the older answer. -/
theorem witness_betweenResets : ∃ r s t : State, genIds r.answers = [genId full] ∧ r.move .reset = some s ∧
    s.SmallClock ∧ BetweenResets s t ∧ ∃ new, t.answers = new ++ s.answers ∧
      ∃ v w, genIds new = [v, w] ∧ w < v ∧ v < genId full := by
  refine ⟨{ mk .noCheck full [0, 0] [] with answers := [{ op := 0b101, rsp := .id (genId full) }] }, _, _, by decide, rfl,
    ⟨by simp [mk, msBound], by decide, trivial⟩,
    .step (.step (.issue (Request.blank 0b101) (.issue (Request.blank 0b101) (.refl _) rfl) rfl) rfl) rfl,
    [{ op := 0b101, rsp := .id (genId { GenState.reset with counter := 2 }) },
      { op := 0b101, rsp := .id (genId { GenState.reset with counter := 1 }) }], rfl, _, _, rfl, by decide, by decide⟩

/-- LastMsNeverDecreases: a move that is not reset. -/
theorem witness_move : ∃ (s t : State) (m : Move), m ≠ .reset ∧ s.move m = some t :=
  ⟨State.reset, _, .clockAnswer 7, by decide, rfl⟩

/-- GeneratorOrderIsKept: an ordered state with an output, a step of it, and a clock move below the bound. -/
theorem witness_ordered : ∃ s t : State, s.Ordered ∧ genIds s.answers ≠ [] ∧ step s = .next t ∧
    ∃ u, s.move (.clockAnswer 0xffffffffffff) = some u ∧ (0xffffffffffff : Word64) < msBound :=
  ⟨{ mk .noCheck full [] [] with answers := [{ op := 0b101, rsp := .id (genId full) }] }, _,
    ⟨⟨by simp [mk], by decide, trivial⟩, by simp [genIds, responseId?, Instr.opcode],
      by simp [genIds, responseId?, Instr.opcode, mk]⟩, by decide, rfl, _, rfl, by decide⟩

/-- CounterNeverWrapsInAMillisecond: a step in the same millisecond, and one into a new one. -/
theorem witness_counter : ∃ s t u v : State, step s = .next t ∧ t.gen.lastMs = s.gen.lastMs ∧
    t.gen.counter ≠ s.gen.counter ∧ step u = .next v ∧ v.gen.lastMs ≠ u.gen.lastMs :=
  ⟨{ mk .noCheck nearFull [5] [] with requests := [Request.blank 0b101] }, _,
    { mk .noCheck full [6] [0] with requests := [Request.blank 0b101] }, _, rfl, rfl, by decide, rfl, by decide⟩

/-- GenNeverAnswersTheZeroStart: the first GEN after reset with a clock that answers 0 (B9, sequence G3). -/
theorem witness_zeroStart : ∃ (s t : State) (v : Ident), s.SmallClock ∧ step s = .next t ∧
    t.answers = { op := 0b101#3, rsp := .id v } :: s.answers ∧ v = 0x00000000000070008000000000000001 :=
  ⟨{ mk .noCheck GenState.reset [0] [] with requests := [Request.blank 0b101] }, _, _,
    ⟨by simp [mk, msBound], by decide, trivial⟩, rfl, rfl, by decide⟩

/-- PureResponsesDependOnOperandsAlone: instructions of each clause. -/
theorem witness_pure : Instr.enc rk0 rk1 idV1 ≠ .gen ∧ (∀ k0 k1 id, Instr.rsvd6 ≠ .enc k0 k1 id) ∧
    (∀ k0 k1 id, Instr.rsvd6 ≠ .dec k0 k1 id) ∧ Instr.rsvd6 ≠ .gen := by
  refine ⟨by decide, ?_, ?_, by decide⟩ <;> simp

/-- GenReadsOnlyItsInputs, StepFrame, AnswersStaySound, InvariantIsKeptByEveryStep: a step with a next state that
answers, from a state that meets the invariant and whose answers are sound. -/
theorem witness_step : ∃ s t : State, s.Inv ∧ (∀ a ∈ s.answers, a.sound s.cfg) ∧ step s = .next t ∧
    t.answers ≠ s.answers ∧ ∃ u, exec .gen s = .next u :=
  ⟨asked [Request.blank 0b110], _, ⟨by decide, by decide, trivial⟩, by simp [asked, State.reset], rfl, by decide, _, rfl⟩

/-- ErrorResponsesHaveNoPayload: a response of each clause. -/
theorem witness_responses : (responseRecord (.error .keyFormatError)).status ≠ 0 ∧
    (responseRecord (.id idE)).status = 0 := by decide

/-- InvariantHoldsAtReset: parameters other than the defaults. -/
theorem witness_config : ∃ c : Config, c.wf = true ∧ c ≠ Config.default :=
  ⟨{ versionCheck := .exact, msgMax := some 12 }, by decide, by decide⟩

/-- InvariantIsKeptByEveryMove: the longest message that can be issued, and one byte more. -/
theorem witness_moves : ∃ (s t : State) (r q : Request), s.Inv ∧ s.move .reset = some t ∧ s.cfg.msgMax = some 12 ∧
    12 < r.msg.length ∧ s.move (.issue r) = none ∧ q.msg.length = 12 ∧
    ∀ n, s.cfg.msgMax = some n → q.msg.length ≤ n :=
  ⟨mk .noCheck GenState.reset [] [], _, { Request.blank 0b000 with msg := List.replicate 13 0 },
    { Request.blank 0b000 with msg := List.replicate 12 0 }, ⟨by decide, by decide, trivial⟩, rfl, rfl, by decide,
    by decide, by decide, fun n h => by
      obtain rfl := Option.some.inj h
      decide⟩

/-- ReachableStatesAlwaysStep: a reachable state with a request issued. -/
theorem witness_reachable : ∃ s : State, Reachable s ∧ s.requests ≠ [] :=
  ⟨_, .move (.issue (Request.blank 0b101)) (.start Config.default (by decide)) rfl, by decide⟩

/-- PureBatchFinishes: a batch of two. -/
theorem witness_batch : ∃ s : State, s.Inv ∧ s.port = .idle ∧ s.requests.length = 2 ∧
    ∀ r ∈ s.requests, r.op ≠ 0b101#3 :=
  ⟨asked [{ Request.blank 0b100 with id := idV1 }, Request.blank 0b111], ⟨by decide, by decide, trivial⟩, rfl, rfl,
    by decide⟩

end Sys2Proof.Tests
end

section
/-! PROOFS. The order of identifiers in memory (20_memory.md R42): O13. -/

namespace Sys2Proof.Machine

/-- A leading digit decides a comparison, and the rest decides it when the leading digits are equal. -/
theorem mul_add_lt_mul_add_iff {w m n p q : Nat} (hp : p < w) (hq : q < w) :
    m * w + p < n * w + q ↔ m < n ∨ m = n ∧ p < q := by
  obtain less | rfl | greater := lt_trichotomy m n
  · have : (m + 1) * w ≤ n * w := Nat.mul_le_mul_right w less
    rw [Nat.add_one_mul] at this
    omega
  · omega
  · have : (n + 1) * w ≤ m * w := Nat.mul_le_mul_right w greater
    rw [Nat.add_one_mul] at this
    omega

/-- Among byte sequences of one length, the big-endian value follows the byte-wise order (R10, R42). -/
theorem be_lt_be_iff {s t : List Byte} (len : s.length = t.length) : be s < be t ↔ s < t := by
  induction s generalizing t with
  | nil =>
    obtain rfl := List.length_eq_zero_iff.mp len.symm
    simp
  | cons b bs ih =>
    cases t with
    | nil => simp at len
    | cons c cs =>
      have len' : bs.length = cs.length := by simpa using len
      have low : be cs < 256 ^ bs.length := len' ▸ be_lt cs
      rw [be_cons, be_cons, ← len', mul_add_lt_mul_add_iff (be_lt bs) low, ih len', List.cons_lt_cons_iff,
        BitVec.lt_def, BitVec.toNat_inj]

/-- The 16 bytes determine the identifier (R41). -/
theorem idBytes_injective : Function.Injective idBytes := fun x y same =>
  BitVec.eq_of_toNat_eq (by rw [← be_idBytes x, same, be_idBytes])

/-- Settles O13: the bytes of an identifier are its digits in base 256, most significant first. -/
theorem byteOrderIsNumericOrder : Obligations.ByteOrderIsNumericOrder := by
  intro x y
  refine ⟨?_, idBytes_injective.eq_iff⟩
  rw [← be_lt_be_iff (by simp), be_idBytes, be_idBytes, BitVec.lt_def]

end Sys2Proof.Machine
end

section
/-! PROOFS. The PRF message of an identifier (30_encoding.md R68): O14. -/

namespace Sys2Proof.Machine

/-- A mask of `m` low ones clears the `n` bits of the high part and keeps the low part (R68's masking of a marker). -/
theorem append_and_lowOnes {n m : Nat} (hi : BitVec n) (lo : BitVec m) :
    (hi ++ lo) &&& (0#n ++ BitVec.allOnes m) = 0#n ++ lo := by
  rw [BitVec.and_append, BitVec.and_zero, BitVec.and_allOnes]

/-- Masking the version marker off byte 6 leaves the four high bits of field A (R64, R68). -/
theorem idByte_six_lowNibble (id : Ident) : idByte id 6 &&& 0x0F = 0#4 ++ (getA id).extractLsb' 8 4 := by
  rw [← makeId_fields id, idByte_makeId_six, getA_makeId]
  exact append_and_lowOnes (getVer id) _

/-- Masking the variant marker off byte 8 leaves the six high bits of field B (R64, R68). -/
theorem idByte_eight_lowSix (id : Ident) : idByte id 8 &&& 0x3F = 0#2 ++ (getB id).extractLsb' 56 6 := by
  rw [← makeId_fields id, idByte_makeId_eight, getB_makeId]
  exact append_and_lowOnes (getVar id) _

/-- Byte 7 is the low byte of field A (R64). -/
theorem idByte_seven (id : Ident) : idByte id 7 = (getA id).extractLsb' 0 8 := by
  rw [← makeId_fields id, idByte_makeId_seven, getA_makeId]

/-- Bytes 9 to 15 are the seven low bytes of field B (R64). -/
theorem idByte_tail (id : Ident) (j : Nat) (h : 9 ≤ j) (h' : j < 16) :
    idByte id j = (getB id).extractLsb' (8 * (15 - j)) 8 := by
  rw [← makeId_fields id, idByte_makeId_tail _ _ _ _ _ j h h', getB_makeId]

/-- The message byte by byte, as R68 reads it off the identifier. -/
theorem prfMsg_eq_idBytes (id : Ident) : prfMsg id =
    [idByte id 6 &&& 0x0F, idByte id 7, idByte id 8 &&& 0x3F, idByte id 9, idByte id 10, idByte id 11, idByte id 12,
      idByte id 13, idByte id 14, idByte id 15] := by
  rw [idByte_six_lowNibble, idByte_seven, idByte_eight_lowSix]
  simp [prfMsg, prfMsgOf, idByte_tail]

/-- Settles O14: the message is a function of fields A and B, and each of its bytes is a byte of the identifier with
the marker masked off. -/
theorem prfMessageIsFieldsAandB : Obligations.PrfMessageIsFieldsAandB :=
  ⟨prfMsg_eq_idBytes, fun _ => rfl, fun _ _ _ _ _ _ _ _ =>
    prfMsg_congr (by rw [getA_makeId, getA_makeId]) (by rw [getB_makeId, getB_makeId])⟩

end Sys2Proof.Machine
end

section
/-! PROOFS. The mask transform (41_mask_transform.md R124 to R126): O19, O20, O21. -/

namespace Sys2Proof.Machine

/-- The marker an operation expects is refused under no version check (R123). -/
theorem versionRefused_expected (c : VersionCheck) {v : BitVec 4} (h : v = verFacade ∨ v = verSortable) :
    versionRefused c v v = false := by
  cases c with
  | noCheck => rfl
  | either => obtain rfl | rfl := h <;> rfl
  | exact => simp [versionRefused]

section Accepted

variable {s : State} {k0 k1 : Word64} {id : Ident}

/-- ENC past the version check (R120). -/
theorem exec_enc_of_not_refused (h : versionRefused s.cfg.versionCheck verSortable (getVer id) = false) :
    exec (.enc k0 k1 id) s = .next (s.respond 0b001#3 (.id (xf id k0 k1 verFacade))) := by
  simp only [exec, execEnc, h]
  rfl

/-- DEC past the version check (R121). -/
theorem exec_dec_of_not_refused (h : versionRefused s.cfg.versionCheck verFacade (getVer id) = false) :
    exec (.dec k0 k1 id) s = .next (s.respond 0b010#3 (.id (xf id k0 k1 verSortable))) := by
  simp only [exec, execDec, h]
  rfl

end Accepted

section Transform

variable (id : Ident) (k0 k1 : Word64) (m n : BitVec 4)

/-- The transform twice under one key: the mask of the second is that of the first and cancels it, so that only the
markers can have changed (R124, R128). -/
theorem xf_xf : xf (xf id k0 k1 m) k0 k1 n = makeId (getTs id) n (getA id) variantMarker (getB id) := by
  rw [xf, getTs_xf, getA_xf, getB_xf, mask48_xf, BitVec.xor_assoc, BitVec.xor_self, BitVec.xor_zero]

/-- A valid sortable identifier comes back, whatever version marker the form in between has (R124). -/
theorem xf_xf_of_validSortable (hver : getVer id = verSortable) (hvar : getVar id = variantMarker) :
    xf (xf id k0 k1 m) k0 k1 verSortable = id := by
  rw [xf_xf, ← hver, ← hvar, makeId_fields]

/-- Below the version marker stand field A, the variant marker and field B (R64). -/
theorem low76_eq_fields : id.extractLsb' 0 76 = getA id ++ getVar id ++ getB id := by
  apply BitVec.eq_of_toNat_eq
  simp only [BitVec.toNat_append]
  rw [← Nat.shiftLeft_add_eq_or_of_lt (getVar id).isLt, ← Nat.shiftLeft_add_eq_or_of_lt (getB id).isLt, getA_toNat,
    getVar_toNat, getB_toNat]
  simp only [BitVec.extractLsb'_toNat, Nat.shiftRight_eq_div_pow, Nat.shiftLeft_eq]
  omega

/-- Where the variant marker is already 0b10, the transform keeps bits 75 to 0 (R126). -/
theorem low76_xf (hvar : getVar id = variantMarker) :
    (xf id k0 k1 n).extractLsb' 0 76 = id.extractLsb' 0 76 := by
  rw [low76_eq_fields, low76_eq_fields, getA_xf, getVar_xf, getB_xf, hvar]

end Transform

/-- Settles O19: ENC accepts the sortable marker and answers the facade marker, which DEC accepts; the two masks are
equal and cancel. -/
theorem decOfEncIsIdentity : Obligations.DecOfEncIsIdentity := by
  intro s t k0 k1 id hver hvar
  have inverse := xf_xf_of_validSortable id k0 k1 verFacade hver hvar
  have encAccepts : versionRefused s.cfg.versionCheck verSortable (getVer id) = false :=
    hver ▸ versionRefused_expected _ (.inr rfl)
  have decAccepts : versionRefused t.cfg.versionCheck verFacade (getVer (xf id k0 k1 verFacade)) = false := by
    rw [getVer_xf, versionRefused_expected _ (.inl rfl)]
  refine ⟨inverse, _, exec_enc_of_not_refused encAccepts, ?_⟩
  rw [exec_dec_of_not_refused decAccepts, inverse]

/-- Settles O20: what is answered is the transform of the operand, whose markers are those asked of it. -/
theorem encDecShape : Obligations.EncDecShape := fun _ _ _ _ =>
  ⟨fun accepted => ⟨_, exec_enc_of_not_refused accepted, getVer_xf .., getVar_xf ..⟩,
    fun accepted => ⟨_, exec_dec_of_not_refused accepted, getVer_xf .., getVar_xf ..⟩⟩

/-- Settles O21: the version marker is not among bits 75 to 0, so the variant marker alone decides the last clause. -/
theorem fieldsAandBUntouched : Obligations.FieldsAandBUntouched := fun id k0 k1 n =>
  ⟨getA_xf .., getB_xf .., fun _ hvar => low76_xf id k0 k1 n hvar⟩

end Sys2Proof.Machine
end

section
/-! PROOFS. The text codec (42_codec.md R142): O26. -/

namespace Sys2Proof.Machine

/-- Reading digits whose values are known, one by one (R140). -/
theorem readDigits_eq_map {text : List Byte} {ds : List Nat} {f : Nat → Nibble}
    (digits : ∀ d ∈ ds, (text[digitOffset d]?).bind hexval = some (f d)) : readDigits text ds = some (ds.map f) := by
  rwa [readDigits_eq_some, List.forall₂_map_right_iff, List.forall₂_same]

/-- PARSE accepts a text of the right length and hyphens whose digits spell an identifier, and gives that identifier
(R140). -/
theorem parseText_of_digits {text : List Byte} {id : Ident} (len : text.length = 36)
    (placed : hyphensPlaced text = true)
    (digits : ∀ d < 32, (text[digitOffset d]?).bind hexval = some (idNibble id d)) : parseText text = some id := by
  have read := readDigits_eq_map fun d hd => digits d (List.mem_range.mp hd)
  rw [parseText, if_pos ⟨len, placed⟩, read, Option.map_some, joinNibbles_idNibble, BitVec.ofNat_toNat,
    BitVec.setWidth_eq]

/-- Every hyphen of a formatted text is in its place (R72). -/
theorem hyphensPlaced_formatText (id : Ident) : hyphensPlaced (formatText id) = true :=
  List.all_eq_true.mpr fun p hp => beq_iff_eq.mpr (formatText_hyphen id p hp)

/-- The text of an identifier spells that identifier (R142). -/
theorem parseText_formatText (id : Ident) : parseText (formatText id) = some id := by
  apply parseText_of_digits (formatText_length id) (hyphensPlaced_formatText id)
  intro d hd
  rw [formatText_digit id d hd, Option.bind_some, hexval_hexchar]

/-- PARSE of an accepted text (R140). -/
theorem exec_parse_of_parseText {text : List Byte} {id : Ident} (s : State) (accepted : parseText text = some id) :
    exec (.parse text) s = .next (s.respond 0b011#3 (.id id)) := by
  simp only [exec, execParse, accepted]
  rfl

/-- Settles O26: the hyphens of a formatted text are in their places, and each digit reads back as the nibble it was
written for. -/
theorem parseOfFmtIsIdentity : Obligations.ParseOfFmtIsIdentity := fun _ t id =>
  ⟨formatText id, rfl, exec_parse_of_parseText t (parseText_formatText id)⟩

end Sys2Proof.Machine
end

section
/-! PROOFS. The monotonic generator (43_generator.md R162, R164, R168, R170): O30, O32, O38, O40. -/

namespace Sys2Proof.Machine

section OneLook

variable {s t : State} {now now' : Word64}

/-- At or below `last_ms` the value of the clock answer does not matter (R164). -/
theorem genWith_congr_of_le (h : now ≤ s.gen.lastMs) (h' : now' ≤ s.gen.lastMs) : genWith now s = genWith now' s := by
  by_cases exhausted : s.gen.counter = counterMax
  · rw [genWith_hold h exhausted, genWith_hold h' exhausted]
  · rw [genWith_count h exhausted, genWith_count h' exhausted]

/-- A clock answer at or below `last_ms` keeps the millisecond and its random bits, and what is answered carries that
millisecond (R163, R164). -/
theorem genWith_keeps_ms_of_le (hle : now ≤ s.gen.lastMs) (h : genWith now s = .next t) :
    t.gen.lastMs = s.gen.lastMs ∧ t.gen.highRandom = s.gen.highRandom ∧
      (t.answers = s.answers ∨
        ∃ v, t.answers = { op := 0b101#3, rsp := .id v } :: s.answers ∧ getTs v = s.gen.lastMs.extractLsb' 0 48) := by
  by_cases exhausted : s.gen.counter = counterMax
  · rw [genWith_hold hle exhausted] at h
    obtain rfl := Host.Outcome.next.inj h
    exact ⟨rfl, rfl, .inl rfl⟩
  · rw [genWith_count hle exhausted] at h
    obtain rfl := Host.Outcome.next.inj h
    exact ⟨rfl, rfl, .inr ⟨_, rfl, getTs_genId _⟩⟩

end OneLook

/-- Settles O30: the look takes the clock answer, and its step is that of a new millisecond. -/
theorem genStartsANewMillisecond : Obligations.GenStartsANewMillisecond := fun s _ cs _ _ hclock hrandom later =>
  (genLook_cons hclock).trans (genWith_newMs (s := { s with clock := cs }) later hrandom)

/-- Settles O32: the answer and `last_ms` itself are both at or below `last_ms`, where the value does not matter. -/
theorem genClampsAClockThatWentBack : Obligations.GenClampsAClockThatWentBack := fun s _ cs back =>
  ⟨genWith_congr_of_le (s := { s with clock := cs }) (BitVec.le_of_lt back) (BitVec.le_refl _),
    fun _ => genWith_keeps_ms_of_le (s := { s with clock := cs }) (BitVec.le_of_lt back)⟩

/-! What a step of the machine does to the generator and to the list of its outputs. -/

/-- The two ways GEN writes `G`: a new millisecond (R162), or one more in the present one (R163). -/
inductive GenState.Next : GenState → GenState → Prop where
  | newMs {g : GenState} {now : Word64} (rnd : BitVec 42) (later : g.lastMs < now) :
      Next g { lastMs := now, counter := 0, highRandom := rnd }
  | count {g : GenState} (below : g.counter ≠ counterMax) : Next g { g with counter := g.counter + 1 }

theorem GenState.Next.lastMs {g g' : GenState} (h : g.Next g') : g'.lastMs = g.lastMs ∨ g.lastMs < g'.lastMs := by
  cases h with
  | newMs _ later => exact .inr later
  | count _ => exact .inl rfl

/-- While `last_ms` fits the timestamp field, each write of `G` spells a larger identifier (R170, R172). -/
theorem GenState.Next.genId_lt {g g' : GenState} (h : g.Next g') (small : g'.lastMs < msBound) :
    genId g < genId g' := by
  cases h with
  | newMs rnd later => exact genId_lt_of_lastMs _ _ later (BitVec.lt_def.mp small)
  | count below =>
    have counted : g.counter < g.counter + 1 := by
      rw [BitVec.lt_def, counter_succ_toNat below]
      exact Nat.lt_succ_self _
    exact genId_lt_of_counter _ _ rfl rfl counted

/-- From `s` to `t` GEN made no output and left `G`, or wrote `G` and answered the identifier it then spells (R166). -/
def State.Produces (s t : State) : Prop :=
  (t.gen = s.gen ∧ genIds t.answers = genIds s.answers) ∨
  (s.gen.Next t.gen ∧ genIds t.answers = genId t.gen :: genIds s.answers)

/-- An answer to another request is no output of GEN. -/
theorem genIds_cons_of_ne {op : OpCode} (h : op ≠ Instr.gen.opcode) (rsp : Response) (as : List Answer) :
    genIds ({ op := op, rsp := rsp } :: as) = genIds as := by
  simp [genIds, h]

/-- GEN has its operation code for itself (R61). -/
theorem opcode_ne_gen {i : Instr} (h : i ≠ .gen) : i.opcode ≠ Instr.gen.opcode := by
  cases i with
  | gen => exact absurd rfl h
  | _ => simp [Instr.opcode]

section OneStep

variable {s t : State} {now : Word64}

/-- A step as the generator sees it: a look at the clock, another try with the clock answer kept, nothing at all, or the
answer to another request. -/
theorem step_generator_cases (h : step s = .next t) :
    (∃ rs, genLook { s with requests := rs } = .next t) ∨
    (∃ now, s.port = .waitRandom now ∧ genWith now s = .next t) ∨
    t = s ∨
    ∃ rs op rsp, op ≠ Instr.gen.opcode ∧ t = { s with requests := rs }.respond op rsp := by
  rcases step_cases h with ⟨-, look⟩ | held | ⟨-, -, same⟩ | ⟨-, -, rest, i, -, -, run⟩
  · exact .inl ⟨s.requests, look⟩
  · exact .inr (.inl held)
  · exact .inr (.inr (.inl same))
  · by_cases hi : i = .gen
    · subst hi
      exact .inl ⟨rest, run⟩
    · obtain ⟨rsp, answered⟩ := exec_of_ne_gen hi { s with requests := rest }
      exact .inr (.inr (.inr ⟨rest, _, rsp, opcode_ne_gen hi, Host.Outcome.next.inj (run.symm.trans answered)⟩))

theorem genWith_produces (h : genWith now s = .next t) : s.Produces t := by
  rcases genWith_cases h with ⟨later, rnd, rest, -, rfl⟩ | ⟨-, -, rfl⟩ | ⟨-, -, rfl⟩ | ⟨-, below, rfl⟩
  · exact .inr ⟨.newMs rnd later, rfl⟩
  · exact .inl ⟨rfl, rfl⟩
  · exact .inl ⟨rfl, rfl⟩
  · exact .inr ⟨.count below, rfl⟩

theorem genLook_produces (h : genLook s = .next t) : s.Produces t := by
  rcases genLook_cases h with ⟨-, rfl⟩ | ⟨_, rest, -, look⟩
  · exact .inl ⟨rfl, rfl⟩
  · exact genWith_produces (s := { s with clock := rest }) look

theorem step_produces (h : step s = .next t) : s.Produces t := by
  rcases step_generator_cases h with ⟨rs, look⟩ | ⟨_, -, held⟩ | rfl | ⟨rs, op, rsp, other, rfl⟩
  · exact genLook_produces (s := { s with requests := rs }) look
  · exact genWith_produces held
  · exact .inl ⟨rfl, rfl⟩
  · exact .inl ⟨rfl, genIds_cons_of_ne other rsp s.answers⟩

theorem genWith_smallClock (hs : s.SmallClock) (hnow : now < msBound) (h : genWith now s = .next t) :
    t.SmallClock := by
  rcases genWith_cases h with ⟨-, _, _, -, rfl⟩ | ⟨-, -, rfl⟩ | ⟨-, -, rfl⟩ | ⟨-, -, rfl⟩
  · exact ⟨hs.clock, hnow, trivial⟩
  · exact ⟨hs.clock, hs.lastMs, hnow⟩
  · exact ⟨hs.clock, hs.lastMs, trivial⟩
  · exact ⟨hs.clock, hs.lastMs, trivial⟩

theorem genLook_smallClock (hs : s.SmallClock) (h : genLook s = .next t) : t.SmallClock := by
  rcases genLook_cases h with ⟨-, rfl⟩ | ⟨now, rest, hclock, look⟩
  · exact ⟨hs.clock, hs.lastMs, trivial⟩
  · obtain ⟨hnow, hrest⟩ := List.forall_mem_cons.mp (hclock ▸ hs.clock)
    exact genWith_smallClock (s := { s with clock := rest }) ⟨hrest, hs.lastMs, hs.held⟩ hnow look

/-- A step takes no millisecond count from anywhere but the clock answers it was given (R161). -/
theorem step_smallClock (hs : s.SmallClock) (h : step s = .next t) : t.SmallClock := by
  rcases step_generator_cases h with ⟨rs, look⟩ | ⟨now, hport, held⟩ | rfl | ⟨rs, op, rsp, -, rfl⟩
  · exact genLook_smallClock (s := { s with requests := rs }) ⟨hs.clock, hs.lastMs, hs.held⟩ look
  · have hnow : (Port.waitRandom now).small := hport ▸ hs.held
    exact genWith_smallClock hs hnow held
  · exact hs
  · exact ⟨hs.clock, hs.lastMs, trivial⟩

/-- A step keeps the order of the outputs (R170): an output it adds is above the identifier `G` spelled before, which
none of the older ones exceeds. -/
theorem step_ordered (hs : s.Ordered) (h : step s = .next t) : t.Ordered := by
  obtain ⟨small, increasing, newest⟩ := hs
  have small' := step_smallClock small h
  rcases step_produces h with ⟨sameG, sameIds⟩ | ⟨next, added⟩
  · exact ⟨small', sameIds ▸ increasing, by rwa [sameIds, sameG]⟩
  · have above : ∀ v ∈ genIds s.answers, v < genId t.gen := fun v hv =>
      Nat.lt_of_le_of_lt (newest v hv) (next.genId_lt small'.lastMs)
    refine ⟨small', ?_, ?_⟩ <;> rw [added]
    · exact List.pairwise_cons.mpr ⟨above, increasing⟩
    · exact List.forall_mem_cons.mpr ⟨BitVec.le_refl _, fun v hv => BitVec.le_of_lt (above v hv)⟩

end OneStep

section OneMove

variable {s t : State} {m : Move}

/-- A move other than reset hands the block one more request, clock answer or random answer (R12). -/
theorem move_cases (notReset : m ≠ .reset) (h : s.move m = some t) :
    (∃ r, t = { s with requests := s.requests ++ [r] }) ∨
    (∃ now, m = .clockAnswer now ∧ t = { s with clock := s.clock ++ [now] }) ∨
    ∃ rnd, t = { s with random := s.random ++ [rnd] } := by
  cases m with
  | issue r =>
    obtain ⟨-, issued⟩ := Option.ite_none_right_eq_some.mp h
    exact .inl ⟨r, (Option.some.inj issued).symm⟩
  | clockAnswer now => exact .inr (.inl ⟨now, rfl, (Option.some.inj h).symm⟩)
  | randomAnswer rnd => exact .inr (.inr ⟨rnd, (Option.some.inj h).symm⟩)
  | reset => exact absurd rfl notReset

/-- A move other than reset leaves `G` alone (R21, R220). -/
theorem move_gen (notReset : m ≠ .reset) (h : s.move m = some t) : t.gen = s.gen := by
  rcases move_cases notReset h with ⟨_, rfl⟩ | ⟨_, -, rfl⟩ | ⟨_, rfl⟩ <;> rfl

/-- No move answers anything, and none reads what was answered (R220). -/
theorem move_adds_no_answers (h : s.move m = some t) : t.answers = s.answers ∧
    ∀ as, { s with answers := as }.move m = some { t with answers := as } := by
  cases m with
  | issue r =>
    obtain ⟨carriable, issued⟩ := Option.ite_none_right_eq_some.mp h
    obtain rfl := Option.some.inj issued
    exact ⟨rfl, fun _ => if_pos carriable⟩
  | _ =>
    obtain rfl := Option.some.inj h
    exact ⟨rfl, fun _ => rfl⟩

/-- A move keeps the order of the outputs, which it does not touch, as long as a clock answer it gives is below 2^48. -/
theorem move_ordered (hs : s.Ordered) (notReset : m ≠ .reset) (hnow : ∀ now, m = .clockAnswer now → now < msBound)
    (h : s.move m = some t) : t.Ordered := by
  obtain ⟨⟨clock, lastMs, held⟩, increasing, newest⟩ := hs
  rcases move_cases notReset h with ⟨_, rfl⟩ | ⟨now, hm, rfl⟩ | ⟨_, rfl⟩
  · exact ⟨⟨clock, lastMs, held⟩, increasing, newest⟩
  · have clock' : ∀ x ∈ s.clock ++ [now], x < msBound :=
      List.forall_mem_append.mpr ⟨clock, List.forall_mem_singleton.mpr (hnow now hm)⟩
    exact ⟨⟨clock', lastMs, held⟩, increasing, newest⟩
  · exact ⟨⟨clock, lastMs, held⟩, increasing, newest⟩

end OneMove

/-! Between two resets. -/

/-- What holds at the start and is kept by every step, and by every move but reset whose clock answer is below 2^48,
holds until the next reset. -/
theorem BetweenResets.invariant {P : State → Prop} {s t : State} (run : BetweenResets s t) (start : P s)
    (keepStep : ∀ t u, P t → Machine.step t = .next u → P u)
    (keepMove : ∀ t u m, P t → m ≠ .reset → (∀ now, m = .clockAnswer now → now < msBound) → t.move m = some u → P u) :
    P t := by
  induction run with
  | refl => exact start
  | step _ h ih => exact keepStep _ _ ih h
  | issue r _ h ih => exact keepMove _ _ (.issue r) ih nofun nofun h
  | clock now _ small h ih =>
    exact keepMove _ _ (.clockAnswer now) ih nofun (fun _ e => Move.clockAnswer.inj e ▸ small) h
  | random rnd _ h ih => exact keepMove _ _ (.randomAnswer rnd) ih nofun nofun h

/-- The answers `t` has beyond those of `s` are in order by themselves, whatever those of `s` are. -/
def State.OrderedSince (s t : State) : Prop :=
  ∃ new, t.answers = new ++ s.answers ∧ { t with answers := new }.Ordered

/-- Between two resets the answers added since are in order by themselves: the block moves as it would if it had answered
nothing before (R170). -/
theorem BetweenResets.orderedSince {s t : State} (run : BetweenResets s t) (small : s.SmallClock) :
    s.OrderedSince t := by
  refine run.invariant (P := s.OrderedSince) ?_ ?_ ?_
  · exact ⟨[], rfl, ⟨small.clock, small.lastMs, small.held⟩, .nil, nofun⟩
  · intro t u ⟨new, added, ordered⟩ h
    obtain ⟨newer, addedNow, replay⟩ := step_adds_answers h
    exact ⟨newer ++ new, by rw [addedNow, added, List.append_assoc], step_ordered ordered (replay new)⟩
  · intro t u m ⟨new, added, ordered⟩ notReset hnow h
    obtain ⟨unchanged, replay⟩ := move_adds_no_answers h
    exact ⟨new, unchanged.trans added, move_ordered ordered notReset hnow (replay new)⟩

/-- The timestamp is the top of the identifier, so it follows its order (R64). -/
theorem getTs_le_of_lt {x y : Ident} (h : x < y) : getTs x ≤ getTs y := by
  have := y.isLt
  rw [BitVec.lt_def] at h
  rw [BitVec.le_def, getTs_toNat, getTs_toNat]
  omega

/-- Settles O40: the answers added since the start are in order by themselves. -/
theorem genOutputsStrictlyIncrease : Obligations.GenOutputsStrictlyIncrease := by
  intro s t small run
  obtain ⟨new, added, ordered⟩ := run.orderedSince small
  exact ⟨new, added, ordered.increasing⟩

/-- Settles O38: a step that writes `last_ms` makes it larger, moves leave it, and the timestamps follow the order of the
identifiers they stand in. -/
theorem lastMsNeverDecreases : Obligations.LastMsNeverDecreases := by
  refine ⟨fun s t h => ?_, fun s t m notReset h => ?_, fun s t small run => ?_⟩
  · rcases step_produces h with ⟨sameG, -⟩ | ⟨next, -⟩
    · exact .inl (congrArg GenState.lastMs sameG)
    · exact next.lastMs
  · exact congrArg GenState.lastMs (move_gen notReset h)
  · obtain ⟨new, added, ordered⟩ := run.orderedSince small
    exact ⟨new, added, ordered.increasing.imp getTs_le_of_lt⟩

end Sys2Proof.Machine
end

section
/-! PROOFS. Request records and their instructions (30_encoding.md R60, R61, R63): O1 to O6. -/

namespace Sys2Proof.Machine

/-- No field an instruction carries is lost in its record (R60, R61). -/
theorem select_encode (i : Instr) : (encode i).select = i := by
  cases i with
  | prf k0 k1 msg => exact Laws.Select.prf k0 k1 msg
  | enc k0 k1 id => exact Laws.Select.enc k0 k1 id
  | dec k0 k1 id => exact Laws.Select.dec k0 k1 id
  | parse text => exact Laws.Select.parse text
  | fmt id => exact Laws.Select.fmt id
  | gen => exact Laws.Select.gen
  | rsvd6 => exact Laws.Select.rsvd6
  | rsvd7 => exact Laws.Select.rsvd7

/-- The codes of the opcode map are all there are (R61). -/
theorem opCode_cases (op : OpCode) :
    op = 0 ∨ op = 1 ∨ op = 2 ∨ op = 3 ∨ op = 4 ∨ op = 5 ∨ op = 6 ∨ op = 7 := by
  revert op
  decide

/-- The record of the instruction a record selects has the fields that instruction reads, and no other (R60). -/
theorem encode_select (r : Request) : encode r.select = r.readFields := by
  obtain ⟨op, k0, k1, id, msg, text⟩ := r
  rcases opCode_cases op with rfl | rfl | rfl | rfl | rfl | rfl | rfl | rfl <;> rfl

/-- The instruction a record selects has the record's code (R61). -/
theorem opcode_select (r : Request) : r.select.opcode = r.op := by
  obtain ⟨op, k0, k1, id, msg, text⟩ := r
  rcases opCode_cases op with rfl | rfl | rfl | rfl | rfl | rfl | rfl | rfl <;> rfl

/-- Records with the same read fields select the same instruction: they encode alike (R63). -/
theorem select_congr {r r' : Request} (same : r.readFields = r'.readFields) : r.select = r'.select := by
  rw [← select_encode r.select, encode_select, same, ← encode_select, select_encode]

/-- What an idle port does with a request depends on the instruction it selects (R63). -/
theorem step_congr_select {r r' : Request} (s : State) (rest : List Request) (same : r.select = r'.select) :
    step { s with port := .idle, requests := r :: rest } = step { s with port := .idle, requests := r' :: rest } := by
  simp only [step, serve, decode, same]

/-- A record that can be issued selects a well-formed instruction: the one check is on the message it carries (R109). -/
theorem select_wf {c : Config} {r : Request} (carriable : r.carriable c = true) : r.select.wf c = true := by
  unfold Request.select
  split
  · exact carriable
  all_goals rfl

/-- A record that can be issued is decoded to the instruction it selects (R109). -/
theorem decode_of_carriable {c : Config} {r : Request} (carriable : r.carriable c = true) :
    decode c r = .ok r.select :=
  if_pos (select_wf carriable)

/-- `MSG_MAX` bounds the messages that fit (R8, R109). -/
theorem fits_iff {c : Config} {n : Nat} : c.fits n = true ↔ ∀ m, c.msgMax = some m → n ≤ m := by
  simp [Config.fits, Option.all_eq_true]

/-- A record with no operands can be issued under all parameters. -/
theorem carriable_blank (c : Config) (op : OpCode) : (Request.blank op).carriable c = true :=
  fits_iff.mpr fun m _ => Nat.zero_le m

/-- Every word of the opcode table decodes to the row its low three bits select (R61). -/
theorem decodeTableWord_eq (nbits w : Nat) : decodeTableWord nbits w = some (tableRequest nbits w).select := by
  rw [decodeTableWord, tableRequest, decode_of_carriable (carriable_blank _ _)]

/-- Settles O1: the record selects the instruction, and the check is the one the instruction passes. -/
theorem decodeOfEncodeIsTheInstruction : Obligations.DecodeOfEncodeIsTheInstruction := fun c i wf => by
  rw [decode, select_encode, if_pos wf]

/-- Settles O2: what is decoded is what the record selects. -/
theorem encodeOfDecodeClearsUnreadFields : Obligations.EncodeOfDecodeClearsUnreadFields := by
  intro c r i decoded
  obtain ⟨rfl, -⟩ := decode_ok decoded
  exact encode_select r

/-- Settles O3: the two records select one instruction. -/
theorem unreadFieldsHaveNoEffect : Obligations.UnreadFieldsHaveNoEffect := fun s _ _ rest same =>
  step_congr_select s rest (select_congr same)

/-- Settles O4: the code in each word selects its row. -/
theorem opcodeTableWordsDecode : Obligations.OpcodeTableWordsDecode := by
  unfold Obligations.OpcodeTableWordsDecode
  simp only [decodeTableWord_eq]
  exact ⟨rfl, rfl, rfl, rfl, rfl, rfl, rfl, rfl⟩

/-- Settles O5: the idle port takes the head of its queue. -/
theorem stepRunsTheDecodedRequest : Obligations.StepRunsTheDecodedRequest := fun _ _ _ _ idle issued decoded =>
  step_request idle issued decoded

/-- Settles O6: the word's record is at the head of an idle port, and it can be issued under all parameters. -/
theorem fetchWordRunsItsInstruction : Obligations.FetchWordRunsItsInstruction := by
  intro s nbits w i decoded
  rw [decodeTableWord_eq] at decoded
  obtain rfl := Option.some.inj decoded
  exact step_request (s := s.withFetchWord nbits w) rfl rfl (decode_of_carriable (carriable_blank _ _))

end Sys2Proof.Machine
end

section
/-! PROOFS. The keyed PRF (40_prf.md R100 to R110) and the byte order of its words (20_memory.md R43, R44): O8 to O11,
O15, O56 to O58. -/

namespace Sys2Proof.Machine

/-! Bytes of a word. -/

/-- Byte `j` of a word, counted from the least significant (R10). -/
theorem word_byte_toNat (x : Word64) (j : Nat) : (x.extractLsb' (8 * j) 8).toNat = x.toNat / 256 ^ j % 256 := by
  rw [BitVec.extractLsb'_toNat, Nat.shiftRight_eq_div_pow, Nat.pow_mul]

/-- Byte `j` of the word that holds a little-endian sequence is element `j` of it (R10). -/
theorem le_word_byte (s : List Byte) {j : Nat} (hj : j < 8) :
    (BitVec.ofNat 64 (le s)).extractLsb' (8 * j) 8 = s[j]?.getD 0 := by
  apply BitVec.eq_of_toNat_eq
  rw [word_byte_toNat, BitVec.toNat_ofNat, ← le_byte]
  interval_cases j <;> omega

/-! The blocks of a message. -/

/-- Byte `j` of full block `i` (R103). -/
theorem sipBlock_byte (msg : List Byte) (i : Nat) {j : Nat} (hj : j < 8) :
    (sipBlock msg i).extractLsb' (8 * j) 8 = msg[8 * i + j]?.getD 0 := by
  rw [sipBlock, le_word_byte _ hj, List.getElem?_take_of_lt hj, List.getElem?_drop]

/-- The seven low bytes of the final block are the trailing bytes, then zeros (R105). -/
theorem sipLast_byte (msg : List Byte) {j : Nat} (hj : j < 7) :
    (sipLast msg).extractLsb' (8 * j) 8 = msg[8 * (msg.length / 8) + j]?.getD 0 := by
  apply BitVec.eq_of_toNat_eq
  rw [← List.getElem?_drop, word_byte_toNat, sipLast_toNat, ← le_byte]
  interval_cases j <;> omega

/-- The top byte of the final block is the length modulo 256 (R105). -/
theorem sipLast_top (msg : List Byte) :
    (sipLast msg).extractLsb' 56 8 = BitVec.ofNat 8 (msg.length % 256) := by
  have tail := le_lt (msg.drop (8 * (msg.length / 8)))
  have short : (msg.drop (8 * (msg.length / 8))).length ≤ 7 := by rw [List.length_drop]; omega
  have bound : 256 ^ (msg.drop (8 * (msg.length / 8))).length ≤ 256 ^ 7 := Nat.pow_le_pow_right (by omega) short
  apply BitVec.eq_of_toNat_eq
  rw [show 56 = 8 * 7 from rfl, word_byte_toNat, sipLast_toNat, BitVec.toNat_ofNat]
  omega

/-- Settles O8: PRF has one outcome. -/
theorem prfRespondsItsValue : Obligations.PrfRespondsItsValue := fun _ _ _ _ => rfl

/-- Settles O9: block `i` is the little-endian word of the eight bytes from `8i` on. -/
theorem prfBlocksAreLittleEndian : Obligations.PrfBlocksAreLittleEndian := fun msg =>
  ⟨sipBlocks_length msg, fun i hi => ⟨sipBlock msg i, by simp [sipBlocks, hi], fun _ => sipBlock_byte msg i⟩⟩

/-- Settles O10: past the trailing bytes the message has none, so the bytes up to the length byte are zero. -/
theorem prfFinalBlockHoldsTailAndLength : Obligations.PrfFinalBlockHoldsTailAndLength := by
  intro msg
  refine ⟨fun j hj => sipLast_byte msg (by omega), fun j past hj => ?_, sipLast_top msg⟩
  rw [sipLast_byte msg hj, List.getElem?_eq_none (by omega), Option.getD_none]

/-! The raw form of a key. -/

/-- A word is the little-endian value of its eight bytes (R44, R79). -/
theorem ofNat_le_leBytes (k : Word64) : BitVec.ofNat 64 (le (leBytes 8 k.toNat)) = k := by
  apply BitVec.eq_of_toNat_eq
  have := k.isLt
  rw [le_leBytes, BitVec.toNat_ofNat]
  omega

/-- Settles O15: each half of the raw key is the little-endian form of its word. -/
theorem rawKeyIsTwoLittleEndianWords : Obligations.RawKeyIsTwoLittleEndianWords := by
  refine ⟨fun r len => ⟨_, _, if_pos len, fun j hj => ⟨?_, ?_⟩⟩, fun k0 k1 => ?_, fun r len => if_neg len⟩
  · rw [le_word_byte _ hj, List.getElem?_take_of_lt hj]
  · rw [le_word_byte _ hj, List.getElem?_drop]
  · have len : (rawOfKey k0 k1).length = 16 := by simp [rawOfKey]
    have low : (rawOfKey k0 k1).take 8 = leBytes 8 k0.toNat := List.take_left' (leBytes_length 8 _)
    have high : (rawOfKey k0 k1).drop 8 = leBytes 8 k1.toNat := List.drop_left' (leBytes_length 8 _)
    rw [keyOfRaw, if_pos len, low, high, ofNat_le_leBytes, ofNat_le_leBytes]

/-! The round and the whole function. -/

/-- Adding one word into another and mixing the sum into the rotated first loses nothing; the round is four of these
(R102, R108). -/
theorem add_rotate_xor_injective {a b c d : Word64} {r : Nat} (hr : r < 64) (sum : a + b = c + d)
    (mix : b.rotateLeft r ^^^ (a + b) = d.rotateLeft r ^^^ (c + d)) : a = c ∧ b = d := by
  rw [sum, BitVec.xor_left_inj] at mix
  obtain rfl := rotateLeft_injective r hr mix
  exact ⟨(BitVec.add_left_inj b).mp sum, rfl⟩

/-- Settles O11: the round is undone from its end, one addition, rotation and XOR after the other. -/
theorem siproundIsInjective : Obligations.SiproundIsInjective := by
  rintro ⟨a0, a1, a2, a3⟩ ⟨b0, b1, b2, b3⟩ same
  obtain ⟨v0, v1, v2, v3⟩ := SipWords.mk.inj same
  have sum2 := rotateLeft_injective 32 (by omega) v2
  obtain ⟨low23, mix1⟩ := add_rotate_xor_injective (by omega : 17 < 64) sum2 (sum2 ▸ v1)
  obtain ⟨rot01, mix3⟩ := add_rotate_xor_injective (by omega : 21 < 64) v0 v3
  have low01 := rotateLeft_injective 32 (by omega) rot01
  obtain ⟨rfl, rfl⟩ := add_rotate_xor_injective (by omega : 13 < 64) low01 mix1
  obtain ⟨rfl, rfl⟩ := add_rotate_xor_injective (by omega : 16 < 64) low23 mix3
  rfl

/-- Settles O56: the library's rotation is the spec's `rotl64`, and the worked example is evaluated. -/
theorem siproundIsTheFourteenSteps : Obligations.SiproundIsTheFourteenSteps := by
  refine ⟨fun v0 v1 v2 v3 => ?_, by decide⟩
  simp only [sipround, BitVec.rotateLeft_def]

/-- The working words after the first `i` blocks, the final block counted among them (R104, R105). -/
def wordsAfter (msg : List Byte) (k0 k1 : Word64) (i : Nat) : SipWords :=
  ((sipBlocks msg ++ [sipLast msg]).take i).foldl sipCompress (sipInit k0 k1)

/-- Block `i` is compressed into the words after the blocks before it (R104). -/
theorem wordsAfter_succ {msg : List Byte} (k0 k1 : Word64) {i : Nat} {m : Word64}
    (block : (sipBlocks msg ++ [sipLast msg])[i]? = some m) :
    wordsAfter msg k0 k1 (i + 1) = sipCompress (wordsAfter msg k0 k1 i) m := by
  rw [wordsAfter, List.take_add_one, block, Option.toList_some, List.foldl_append, List.foldl_cons, List.foldl_nil,
    wordsAfter]

/-- The value is what finalization makes of the words after all blocks (R107). -/
theorem prf_eq_finalize (msg : List Byte) (k0 k1 : Word64) :
    prf msg k0 k1 = sipFinalize (wordsAfter msg k0 k1 (msg.length / 8 + 1)) := by
  rw [prf_eq_foldl, wordsAfter, List.take_of_length_le (by simp)]

/-- Settles O57: the words after each block are those `prf` folds over. -/
theorem prfIsTheWrittenAlgorithm : Obligations.PrfIsTheWrittenAlgorithm := fun msg k0 k1 =>
  ⟨wordsAfter msg k0 k1, rfl, fun _ _ block => ⟨_, rfl, wordsAfter_succ k0 k1 block⟩, _, _, rfl, rfl,
    prf_eq_finalize msg k0 k1⟩

/-- Settles O58: both values are evaluated. -/
theorem prfGivesThePrintedValues : Obligations.PrfGivesThePrintedValues := ⟨by decide, by decide⟩

end Sys2Proof.Machine
end

section
/-! PROOFS. The identifier's fields (30_encoding.md R64, R65) and the mask transform (41_mask_transform.md R120 to R130;
20_memory.md R46): O12, O16 to O18, O22 to O25. -/

namespace Sys2Proof.Machine

/-- Settles O12: an identifier and its five fields determine each other. -/
theorem fieldAccessorsAgree : Obligations.FieldAccessorsAgree :=
  ⟨fun _ _ _ _ _ => ⟨getTs_makeId .., getVer_makeId .., getA_makeId .., getVar_makeId .., getB_makeId ..⟩,
    makeId_fields, fun id t => setTs_eq_makeId t id, fun id n => setVer_eq_makeId n id,
    fun id w => setVar_eq_makeId w id⟩

/-! The version check. -/

/-- When the version check refuses a marker (R123). -/
theorem versionRefused_iff {check : VersionCheck} {expected ver : BitVec 4} :
    versionRefused check expected ver = true ↔
      (check = .either ∧ ver ≠ 4 ∧ ver ≠ 7) ∨ (check = .exact ∧ ver ≠ expected) := by
  cases check with
  | noCheck => simp [versionRefused]
  | either => simp [versionRefused, verFacade, verSortable]
  | exact => simp [versionRefused]

/-- Under NONE nothing is refused (R123). -/
theorem versionRefused_checks {check : VersionCheck} {expected ver : BitVec 4}
    (refused : versionRefused check expected ver = true) : check ≠ .noCheck := by
  rintro rfl
  exact absurd refused nofun

/-- Where a check decides between an error and a response, the response given is the one it decides on (R196). -/
theorem respond_ite {s : State} {op : OpCode} {e : ErrorCode} {rsp : Response} {refused : Bool} :
    (if refused then .next (s.raise op e) else .next (s.respond op rsp) : Host.Outcome State Fault Refusal) =
      .next (s.respond op (if refused then .error e else rsp)) := by
  cases refused <;> rfl

/-- The error is answered exactly where the check refuses, since the other response is an identifier (R193). -/
theorem respond_ite_eq_error_iff {s : State} {op : OpCode} {e : ErrorCode} {v : Ident} {refused : Bool} :
    (if refused then .next (s.raise op e) else .next (s.respond op (.id v)) : Host.Outcome State Fault Refusal) =
      .next (s.respond op (.error e)) ↔ refused = true := by
  cases refused with
  | true => exact ⟨fun _ => rfl, fun _ => rfl⟩
  | false => simp [State.respond]

/-- Settles O16: `xf` written out. -/
theorem encRespondsTheFacade : Obligations.EncRespondsTheFacade := fun _ _ _ _ accepted =>
  exec_enc_of_not_refused accepted

/-- Settles O17: `xf` written out. -/
theorem decRespondsTheSortable : Obligations.DecRespondsTheSortable := fun _ _ _ _ accepted =>
  exec_dec_of_not_refused accepted

/-- Settles O18: each operation answers the error where its check refuses, and the check refuses as R123 says. -/
theorem versionCheckRefusals : Obligations.VersionCheckRefusals := fun _ _ _ _ =>
  ⟨respond_ite_eq_error_iff.trans versionRefused_iff, respond_ite_eq_error_iff.trans versionRefused_iff⟩

/-! The transform under two keys, and byte by byte. -/

section Transform

variable (id : Ident) (k0 k1 j0 j1 : Word64) (m n : BitVec 4)

/-- The transform twice, under two keys: both masks meet the timestamp (R122, R127). -/
theorem xf_xf_keys : xf (xf id k0 k1 m) j0 j1 n =
    makeId (getTs id ^^^ (mask48 id k0 k1 ^^^ mask48 id j0 j1)) n (getA id) variantMarker (getB id) := by
  rw [xf, getTs_xf, getA_xf, getB_xf, mask48_xf, BitVec.xor_assoc]

/-- Two masks leave a timestamp alone exactly when they cancel. -/
theorem xor_xor_eq_self_iff {w : Nat} (t x y : BitVec w) : t ^^^ (x ^^^ y) = t ↔ x = y := by
  have cancel := BitVec.xor_right_inj (x := x ^^^ y) (y := 0#w) t
  rwa [BitVec.xor_zero, BitVec.xor_eq_zero_iff] at cancel

/-- An identifier with another timestamp in it is that identifier exactly when the timestamp is its own (R64). -/
theorem makeId_ts_eq_self_iff (t : BitVec 48) :
    makeId t (getVer id) (getA id) (getVar id) (getB id) = id ↔ t = getTs id := by
  refine ⟨fun same => ?_, fun same => ?_⟩
  · rw [← same, getTs_makeId]
  · rw [same, makeId_fields]

/-- Below the timestamp stand the version marker and bits 75 to 0 (R64). -/
theorem low80_eq_fields : id.extractLsb' 0 80 = getVer id ++ id.extractLsb' 0 76 :=
  (BitVec.extractLsb'_append_extractLsb'_eq_extractLsb' (start₁ := 0) (len₁ := 76) (len₂ := 4) rfl).symm

/-- Of a key and an identifier the transform reads the mask alone (R130). -/
theorem xf_congr_mask {k0 k1 j0 j1 : Word64} (same : mask48 id k0 k1 = mask48 id j0 j1) :
    xf id k0 k1 n = xf id j0 j1 n := by
  rw [xf, xf, same]

/-- Bytes 0 to 5 are the timestamp, big-endian (R64). -/
theorem idByte_ts (j : Nat) (hj : j < 6) : idByte id j = (getTs id).extractLsb' (8 * (5 - j)) 8 := by
  rw [← makeId_fields id, idByte_makeId_ts _ _ _ _ _ j hj, getTs_makeId]

/-- The low half of byte 6 is the top of field A (R64). -/
theorem idByte_six_low : (idByte id 6).extractLsb' 0 4 = (getA id).extractLsb' 8 4 := by
  rw [← makeId_fields id, idByte_makeId_six, getA_makeId, BitVec.extractLsb'_append_eq_right]

/-- The low six bits of byte 8 are the top of field B (R64). -/
theorem idByte_eight_low : (idByte id 8).extractLsb' 0 6 = (getB id).extractLsb' 56 6 := by
  rw [← makeId_fields id, idByte_makeId_eight, getB_makeId, BitVec.extractLsb'_append_eq_right]

end Transform

/-- Settles O22: what comes back differs from the identifier by the XOR of the masks, in the timestamp alone. -/
theorem wrongKeyDecodesIffMasksAgree : Obligations.WrongKeyDecodesIffMasksAgree := by
  intro id k0 k1 j0 j1 hver hvar
  constructor
  · rw [xf_xf_keys, ← xor_xor_eq_self_iff (getTs id), ← makeId_ts_eq_self_iff id, hver, hvar]
    rfl
  · rw [low80_eq_fields, low80_eq_fields id, getVer_xf, hver, low76_xf _ _ _ _ (getVar_xf ..), low76_xf _ _ _ _ hvar]

/-- Settles O23: the two masks cancel, and setting a marker is assembling the identifier with it. -/
theorem invalidOperandsLoseTheirMarkers : Obligations.InvalidOperandsLoseTheirMarkers := by
  intro id k0 k1
  simp only [xf_xf, setVar_eq_makeId, setVer_eq_makeId, getTs_makeId, getVer_makeId, getA_makeId, getB_makeId]
  refine ⟨rfl, rfl, ?_⟩
  rw [getTs_xf, getA_xf, getVar_xf, getB_xf, xf]

/-- Settles O24: the transform is the same and the version check reads no key. -/
theorem keyLeavesOnlyThroughTheMask : Obligations.KeyLeavesOnlyThroughTheMask := by
  intro s id k0 k1 j0 j1 same
  simp only [exec, execEnc, execDec, Instr.opcode, xf_congr_mask id _ same, and_self]

/-- Settles O25: each byte of the result is a byte of the fields it was assembled from. -/
theorem maskMeetsTimestampBigEndian : Obligations.MaskMeetsTimestampBigEndian := by
  intro id k0 k1 n
  refine ⟨fun j hj => ?_, ?_, ?_, fun j hj other => ?_⟩
  · rw [idByte_ts _ j hj, getTs_xf, BitVec.extractLsb'_xor, idByte_ts _ j hj]
  · rw [xf, idByte_makeId_six, idByte_six_low]
  · rw [xf, idByte_makeId_eight, idByte_eight_low]
    rfl
  · obtain rfl | tail := other
    · rw [idByte_seven, getA_xf, idByte_seven]
    · rw [idByte_tail _ j tail hj, getB_xf, idByte_tail _ j tail hj]

end Sys2Proof.Machine
end

section
/-! PROOFS. The text codec (42_codec.md R140 to R143): O27 to O29. -/

namespace Sys2Proof.Machine

/-- PARSE of a text that is not accepted (R140, R192). -/
theorem exec_parse_of_rejected {text : List Byte} (s : State) (rejected : parseText text = none) :
    exec (.parse text) s = .next (s.respond 0b011#3 (.error .parseError)) := by
  simp only [exec, execParse, rejected]
  rfl

/-- What PARSE responds is what the text spells. -/
theorem parseText_of_exec_parse {s : State} {text : List Byte} {id : Ident}
    (h : exec (.parse text) s = .next (s.respond 0b011#3 (.id id))) : parseText text = some id := by
  cases spelt : parseText text with
  | none =>
    rw [exec_parse_of_rejected s spelt] at h
    simp [State.respond] at h
  | some v =>
    rw [exec_parse_of_parseText s spelt] at h
    simpa [State.respond] using h

/-- Where a text is accepted, each digit's offset holds a character with the digit's value (R140). -/
theorem parseText_digit {text : List Byte} {id : Ident} (accepted : parseText text = some id) {d : Nat} (hd : d < 32) :
    ∃ c, text[digitOffset d]? = some c ∧ hexval c = some (idNibble id d) := by
  obtain ⟨-, -, digits⟩ := parseText_eq_some accepted
  exact Option.bind_eq_some_iff.mp (digits d hd)

/-- The hyphen test, offset by offset (R72). -/
theorem hyphensPlaced_iff {text : List Byte} :
    hyphensPlaced text = true ↔ ∀ p ∈ hyphenOffsets, text[p]? = some hyphen := by
  simp only [hyphensPlaced, List.all_eq_true, beq_iff_eq]

/-- FMT of an accepted text's identifier writes the text in lowercase: at each offset stands its hyphen, or the
lowercase form of its digit (R143). -/
theorem formatText_of_parseText {text : List Byte} {id : Ident} (accepted : parseText text = some id) :
    formatText id = text.map fun c => if 0x41 ≤ c.toNat ∧ c.toNat ≤ 0x46 then c + 0x20 else c := by
  obtain ⟨len, placed, -⟩ := parseText_eq_some accepted
  refine List.ext_getElem? fun p => ?_
  rw [List.getElem?_map]
  by_cases hp : p < 36
  · obtain atHyphen | ⟨d, hd, rfl⟩ := offset_cases p hp
    · rw [formatText_hyphen id p atHyphen, hyphensPlaced_iff.mp placed p atHyphen]
      rfl
    · obtain ⟨c, atDigit, value⟩ := parseText_digit accepted hd
      rw [formatText_digit id d hd, atDigit, hexchar_of_hexval value, Option.map_some]
  · rw [List.getElem?_eq_none (by rw [formatText_length]; omega), List.getElem?_eq_none (by omega), Option.map_none]

/-- A canonical text is accepted: its length and hyphens are right, and each digit has a value (R140). -/
theorem parseText_of_canonical {text : List Byte} (canonical : CanonicalText text) :
    ∃ id, parseText text = some id := by
  obtain ⟨len, hyphens, digits⟩ := canonical
  have valued : ∀ d ∈ List.range 32, (text[digitOffset d]?).bind hexval =
      some (((text[digitOffset d]?).bind hexval).getD 0) := by
    intro d hd
    obtain ⟨c, atDigit, isDigit⟩ := digits d (List.mem_range.mp hd)
    obtain ⟨n, value⟩ := (hexval_isSome c).mpr isDigit
    rw [atDigit, Option.bind_some, value, Option.getD_some]
  rw [parseText, if_pos ⟨len, hyphensPlaced_iff.mpr hyphens⟩, readDigits_eq_map valued]
  exact ⟨_, rfl⟩

/-- Only a canonical text is accepted (R140). -/
theorem canonical_of_parseText {text : List Byte} {id : Ident} (accepted : parseText text = some id) :
    CanonicalText text := by
  obtain ⟨len, placed, -⟩ := parseText_eq_some accepted
  refine ⟨len, hyphensPlaced_iff.mp placed, fun d hd => ?_⟩
  obtain ⟨c, atDigit, value⟩ := parseText_digit accepted hd
  exact ⟨c, atDigit, (hexval_isSome c).mp ⟨_, value⟩⟩

/-- The digit characters as two runs of codes (R74). -/
theorem hexchar_eq (n : Nibble) :
    hexchar n = if n.toNat < 10 then BitVec.ofNat 8 (0x30 + n.toNat) else BitVec.ofNat 8 (0x57 + n.toNat) := by
  revert n
  decide

/-- Settles O27: the text was accepted, and FMT writes it back in lowercase. -/
theorem fmtOfParseIsLowercase : Obligations.FmtOfParseIsLowercase := by
  intro s t text id parsed
  rw [← formatText_of_parseText (parseText_of_exec_parse parsed)]
  rfl

/-- Settles O28: the canonical texts are the accepted ones. -/
theorem parseAcceptsExactlyTheCanonicalText : Obligations.ParseAcceptsExactlyTheCanonicalText := by
  refine fun s text => ⟨fun canonical => ?_, fun other => exec_parse_of_rejected s ?_⟩
  · obtain ⟨id, accepted⟩ := parseText_of_canonical canonical
    exact ⟨id, exec_parse_of_parseText s accepted, fun _ hd => parseText_digit accepted hd⟩
  · exact Option.eq_none_iff_forall_ne_some.mpr fun id accepted => other (canonical_of_parseText accepted)

/-- Settles O29: every offset of the text holds what was written there. -/
theorem fmtRespondsTheCanonicalText : Obligations.FmtRespondsTheCanonicalText := by
  refine fun s id => ⟨formatText id, rfl, formatText_length id, formatText_hyphen id, fun d hd => ?_⟩
  rw [formatText_digit id d hd, hexchar_eq]
  rfl

end Sys2Proof.Machine
end

section
/-! PROOFS. The monotonic generator (43_generator.md R160 to R175): O7, O31, O33 to O37, O39, O41, O42, O44, O59. -/

namespace Sys2Proof.Machine

/-! What one look of GEN gives, and how long a GEN is held. -/

/-- A state's own port, written again. -/
theorem State.with_port_self {s : State} {p : Port} (h : s.port = p) : { s with port := p } = s := by
  rw [← h]

/-- Settles O7: each of the three waits is written over itself. -/
theorem nothingToDoChangesNothing : Obligations.NothingToDoChangesNothing := by
  refine ⟨fun s => step_idle, fun s held silent => ?_, fun s now held later blocked => ?_⟩
  · rw [step_waitClock held, genLook_nil silent, State.with_port_self held]
  · rw [step_waitRandom held, genWith_waitRandom later blocked, State.with_port_self held]

/-- Settles O31: the answer is at `last_ms`, where the counter decides. -/
theorem genCountsInTheSameMillisecond : Obligations.GenCountsInTheSameMillisecond := fun s cs answered =>
  ⟨fun below => ⟨(genLook_cons answered).trans
      (genWith_count (s := { s with clock := cs }) (BitVec.le_refl _) below), counter_succ_toNat below⟩,
    fun exhausted => (genLook_cons answered).trans
      (genWith_hold (s := { s with clock := cs }) (BitVec.le_refl _) exhausted)⟩

/-- Settles O33: the three looks that complete nothing. -/
theorem genIsHeld : Obligations.GenIsHeld :=
  ⟨fun s _ cs answered hle exhausted =>
      (genLook_cons answered).trans (genWith_hold (s := { s with clock := cs }) hle exhausted),
    fun s _ cs answered later blocked =>
      (genLook_cons answered).trans (genWith_waitRandom (s := { s with clock := cs }) later blocked),
    fun _ silent => genLook_nil silent⟩

/-- Settles O35: the comparison is made again with the answer kept. -/
theorem randomAnswerEndsTheWait : Obligations.RandomAnswerEndsTheWait := fun _ _ _ _ held later answered =>
  (step_waitRandom held).trans (genWith_newMs later answered)

/-- A look of a held GEN whose counter is exhausted, at a clock answer not above `last_ms`, takes that answer and
changes nothing else (R165). -/
theorem step_exhausted {s : State} {now : Word64} {rest : List Word64} (held : s.port = .waitClock)
    (exhausted : s.gen.counter = counterMax) (answered : s.clock = now :: rest) (low : now ≤ s.gen.lastMs) :
    step s = .next { s with clock := rest } := by
  rw [step_waitClock held, genLook_cons answered, genWith_hold (s := { s with clock := rest }) low exhausted, ← held]

/-- So do as many looks as there are such answers, one after the other (R165). -/
theorem run_exhausted (n : Nat) {s : State} {low rest : List Word64} (held : s.port = .waitClock)
    (exhausted : s.gen.counter = counterMax) (answered : s.clock = low ++ rest) (hlow : ∀ x ∈ low, x ≤ s.gen.lastMs) :
    core.run (low.length + n) s = core.run n { s with clock := rest } := by
  induction low generalizing s with
  | nil => rw [List.length_nil, Nat.zero_add, ← show s.clock = rest from answered]
  | cons x low ih =>
    obtain ⟨hx, hlow⟩ := List.forall_mem_cons.mp hlow
    rw [List.length_cons, Nat.add_right_comm, run_succ _ (step_exhausted held exhausted answered hx)]
    exact ih (s := { s with clock := low ++ rest }) held exhausted rfl hlow

/-- Settles O34: the looks at the low answers leave the GEN held, and the next look starts a millisecond. -/
theorem heldGenCompletesAtTheFirstAnswerAbove : Obligations.HeldGenCompletesAtTheFirstAnswerAbove := by
  intro s low now cs rnd rs held exhausted answered hlow later random
  constructor
  · intro k hk
    have len : (low.take k).length = k := List.length_take_of_le hk
    have split : s.clock = low.take k ++ (low.drop k ++ now :: cs) := by
      rw [answered, ← List.append_assoc, List.take_append_drop]
    have run := run_exhausted 0 held exhausted split fun x hx => hlow x (List.mem_of_mem_take hx)
    rwa [len] at run
  · have last : step { s with clock := now :: cs } = _ :=
      (step_waitClock (s := { s with clock := now :: cs }) held).trans
        (genWith_newMs (s := { s with clock := cs }) later random)
    rw [run_exhausted 1 held exhausted answered hlow, run_succ 0 last, run_zero]
    rfl

/-- Settles O59: a look at the clock is all GEN does, and an answer that is not a hold completes it. -/
theorem heldGenLooksAgainAtTheClock : Obligations.HeldGenLooksAgainAtTheClock := by
  refine ⟨fun s => step_waitClock, fun s now cs held answered random below => ?_⟩
  rw [step_waitClock held, genLook_cons answered]
  by_cases later : s.gen.lastMs < now
  · obtain ⟨rnd, rs, drawn⟩ := List.exists_cons_of_ne_nil (random later)
    exact ⟨_, genWith_newMs (s := { s with clock := cs }) later drawn, rfl, rfl, rfl, (if_pos later).symm, rfl⟩
  · have hle : now ≤ s.gen.lastMs := BitVec.not_lt.mp later
    exact ⟨_, genWith_count (s := { s with clock := cs }) hle (below hle), rfl, rfl, rfl, (if_neg later).symm, rfl⟩

/-! What a look of GEN can read and write. -/

/-- From `s` to `t` the block went on with a GEN: at most one clock and one random answer were taken, and the GEN is
held with `G` as it was, or has answered the identifier `G` then spells (R32, R161, R166, R169). -/
structure State.GenGoesOn (s t : State) : Prop where
  cfg : t.cfg = s.cfg
  requests : t.requests = s.requests
  clock : t.clock = s.clock ∨ ∃ now, s.clock = now :: t.clock
  random : t.random = s.random ∨ ∃ rnd, s.random = rnd :: t.random
  above : t.port.above t.gen.lastMs
  outcome : (t.port ≠ .idle ∧ t.gen = s.gen ∧ t.answers = s.answers) ∨
    (t.port = .idle ∧ t.answers = { op := 0b101#3, rsp := .id (genId t.gen) } :: s.answers)

section OneLook

variable {s t : State} {now : Word64}

/-- With a clock answer in hand GEN takes no other (R161). -/
theorem genWith_clock (h : genWith now s = .next t) : t.clock = s.clock := by
  rcases genWith_cases h with ⟨-, _, _, -, rfl⟩ | ⟨-, -, rfl⟩ | ⟨-, -, rfl⟩ | ⟨-, -, rfl⟩ <;> rfl

theorem genWith_goesOn (h : genWith now s = .next t) : s.GenGoesOn t := by
  rcases genWith_cases h with ⟨-, rnd, rest, drawn, rfl⟩ | ⟨later, -, rfl⟩ | ⟨-, -, rfl⟩ | ⟨-, -, rfl⟩
  · exact ⟨rfl, rfl, .inl rfl, .inr ⟨rnd, drawn⟩, trivial, .inr ⟨rfl, rfl⟩⟩
  · exact ⟨rfl, rfl, .inl rfl, .inl rfl, later, .inl ⟨nofun, rfl, rfl⟩⟩
  · exact ⟨rfl, rfl, .inl rfl, .inl rfl, trivial, .inl ⟨nofun, rfl, rfl⟩⟩
  · exact ⟨rfl, rfl, .inl rfl, .inl rfl, trivial, .inr ⟨rfl, rfl⟩⟩

theorem genLook_goesOn (h : genLook s = .next t) : s.GenGoesOn t := by
  rcases genLook_cases h with ⟨-, rfl⟩ | ⟨now, rest, answered, look⟩
  · exact ⟨rfl, rfl, .inl rfl, .inl rfl, trivial, .inl ⟨nofun, rfl, rfl⟩⟩
  · obtain ⟨cfg, requests, clock, random, above, outcome⟩ := genWith_goesOn look
    have taken : t.clock = rest := genWith_clock look
    exact ⟨cfg, requests, .inr ⟨now, taken ▸ answered⟩, random, above, outcome⟩

/-- A step of a held port goes on with its GEN (R54). -/
theorem step_held_goesOn (held : s.port ≠ .idle) (h : step s = .next t) : s.GenGoesOn t := by
  rcases step_cases h with ⟨-, look⟩ | ⟨_, -, look⟩ | ⟨idle, -⟩ | ⟨idle, -⟩
  · exact genLook_goesOn look
  · exact genWith_goesOn look
  · exact absurd idle held
  · exact absurd idle held

/-- GEN reads neither the parameters nor the queue of requests (R21, R174). -/
theorem genWith_reads_no_request (h : genWith now s = .next t) (c : Config) (rs : List Request) :
    genWith now { s with cfg := c, requests := rs } = .next { t with cfg := c, requests := rs } := by
  rcases genWith_cases h with ⟨later, _, _, drawn, rfl⟩ | ⟨later, blocked, rfl⟩ | ⟨hle, exhausted, rfl⟩ |
    ⟨hle, below, rfl⟩
  · exact genWith_newMs (s := { s with cfg := c, requests := rs }) later drawn
  · exact genWith_waitRandom (s := { s with cfg := c, requests := rs }) later blocked
  · exact genWith_hold (s := { s with cfg := c, requests := rs }) hle exhausted
  · exact genWith_count (s := { s with cfg := c, requests := rs }) hle below

theorem genLook_reads_no_request (h : genLook s = .next t) (c : Config) (rs : List Request) :
    genLook { s with cfg := c, requests := rs } = .next { t with cfg := c, requests := rs } := by
  rcases genLook_cases h with ⟨silent, rfl⟩ | ⟨now, rest, answered, look⟩
  · exact genLook_nil (s := { s with cfg := c, requests := rs }) silent
  · rw [genLook_cons (s := { s with cfg := c, requests := rs }) answered]
    exact genWith_reads_no_request look c rs

end OneLook

/-- Settles O36: a step of a held port goes on with its GEN. -/
theorem heldGenKeepsThePort : Obligations.HeldGenKeepsThePort := fun _ _ held h =>
  ⟨(step_held_goesOn held h).requests, (step_held_goesOn held h).outcome⟩

/-- Settles O44: over another queue and other parameters GEN looks the same, and it reads no answer given before. -/
theorem genReadsOnlyItsInputs : Obligations.GenReadsOnlyItsInputs := by
  intro s t c rs as h
  obtain ⟨new, added, replay⟩ := genLook_adds_answers (genLook_reads_no_request h c rs)
  exact ⟨new, added, (genLook_goesOn h).cfg, (genLook_goesOn h).requests, replay as⟩

/-! The bytes of a generated identifier. -/

section Bytes

variable (g : GenState)

/-- Field A is the top of the random bits (R70). -/
theorem genBits_top : (genBits g).extractLsb' 62 12 = g.highRandom.extractLsb' 30 12 :=
  BitVec.extractLsb'_append_eq_of_le (by omega)

/-- Field B is the rest of the random bits over the counter (R70). -/
theorem genBits_low : (genBits g).extractLsb' 0 62 = g.highRandom.extractLsb' 0 30 ++ g.counter := by
  apply BitVec.eq_of_toNat_eq
  have := g.counter.isLt
  rw [BitVec.toNat_append, ← Nat.shiftLeft_add_eq_or_of_lt g.counter.isLt, BitVec.extractLsb'_toNat, genBits_toNat,
    BitVec.extractLsb'_toNat, Nat.shiftLeft_eq, Nat.shiftRight_eq_div_pow, Nat.shiftRight_eq_div_pow]
  omega

theorem getA_genId_eq : getA (genId g) = g.highRandom.extractLsb' 30 12 := by
  rw [getA_genId, genBits_top]

theorem getB_genId_eq : getB (genId g) = g.highRandom.extractLsb' 0 30 ++ g.counter := by
  rw [getB_genId, genBits_low]

end Bytes

/-- A part of a part of a bit vector is a part of it. -/
theorem extractLsb'_of_extractLsb' {w : Nat} (x : BitVec w) {i n j m : Nat} (h : j + m ≤ n) :
    (x.extractLsb' i n).extractLsb' j m = x.extractLsb' (i + j) m := by
  ext k hk
  simp [show j + k < n by omega, Nat.add_assoc]

/-- The version marker 7 over four bits, written as R70 does. -/
theorem sortable_over (x : BitVec 4) : verSortable ++ x = 0x70 ||| x.setWidth 8 := by
  revert x
  decide

/-- The variant marker over six bits, written as R70 does. -/
theorem variant_over (x : BitVec 6) : variantMarker ++ x = 0x80 ||| x.setWidth 8 := by
  revert x
  decide

/-- Settles O37: the identifier's fields are parts of `G`, and its bytes are parts of its fields. -/
theorem genIdentifierBytes : Obligations.GenIdentifierBytes := by
  refine fun g => ⟨getTs_genId g, getA_genId_eq g, getB_genId_eq g, fun j hj => ?_, ?_, ?_, ?_, fun j hj => ?_,
    fun j hj => ?_⟩
  · rw [idByte_ts _ j hj, getTs_genId, BitVec.extractLsb'_extractLsb'_of_le (by omega)]
  · rw [genId, idByte_makeId_six, genBits_top, extractLsb'_of_extractLsb' _ (by omega), sortable_over]
  · rw [idByte_seven, getA_genId_eq, extractLsb'_of_extractLsb' _ (by omega)]
  · rw [genId, idByte_makeId_eight, genBits_low, BitVec.extractLsb'_append_eq_of_le (by omega),
      extractLsb'_of_extractLsb' _ (by omega), variant_over]
  · rw [idByte_tail _ _ (by omega) (by omega), getB_genId_eq, BitVec.extractLsb'_append_eq_of_le (by omega),
      extractLsb'_of_extractLsb' _ (by omega), show 0 + (8 * (15 - (9 + j)) - 32) = 8 * (2 - j) by omega]
  · rw [idByte_tail _ _ (by omega) (by omega), getB_genId_eq, BitVec.extractLsb'_append_eq_of_add_le (by omega),
      show 15 - (12 + j) = 3 - j by omega]

/-! The order of the outputs. -/

/-- Settles O39: a new output is above what `G` spelled before, and no move answers anything. -/
theorem generatorOrderIsKept : Obligations.GeneratorOrderIsKept :=
  ⟨fun _ _ => step_ordered, fun _ _ _ => move_ordered⟩

/-- Settles O41: a step leaves `G`, starts a millisecond, or counts without wrapping. -/
theorem counterNeverWrapsInAMillisecond : Obligations.CounterNeverWrapsInAMillisecond := by
  intro s t h
  rcases step_produces h with ⟨sameG, -⟩ | ⟨next, -⟩
  · rw [sameG]
    exact ⟨fun _ => ⟨rfl, .inl rfl⟩, fun other => absurd rfl other⟩
  · cases hg : t.gen
    rw [hg] at next
    cases next with
    | newMs rnd later => exact ⟨fun same => absurd (same ▸ later) (BitVec.lt_irrefl _), fun _ => rfl⟩
    | count below => exact ⟨fun _ => ⟨rfl, .inr (counter_succ_toNat below)⟩, fun other => absurd rfl other⟩

/-- A write of `G` leaves a millisecond above 0 or a counter above 0 (R162, R163). -/
theorem GenState.Next.not_zero {g g' : GenState} (h : g.Next g') : ¬(g'.lastMs = 0 ∧ g'.counter = 0) := by
  rintro ⟨ms, counter⟩
  cases h with
  | newMs rnd later =>
    obtain rfl : _ = (0 : Word64) := ms
    exact BitVec.not_lt_zero later
  | count below =>
    have counted := counter_succ_toNat below
    rw [show g.counter + 1 = 0 from counter] at counted
    exact absurd counted (by simp)

/-- Below 2^48 the timestamp field loses nothing of `last_ms` (R172). -/
theorem lastMs_eq_zero_of_ts {ms : Word64} (small : ms < msBound) (ts : ms.extractLsb' 0 48 = 0) : ms = 0 := by
  have low := congrArg BitVec.toNat ts
  have bound : ms.toNat < 2 ^ 48 := BitVec.lt_def.mp small
  rw [BitVec.extractLsb'_toNat, Nat.shiftRight_zero, Nat.mod_eq_of_lt bound] at low
  exact BitVec.eq_of_toNat_eq low

/-- Settles O42: the identifier answered is that of a `G` just written, whose millisecond the timestamp holds whole. -/
theorem genNeverAnswersTheZeroStart : Obligations.GenNeverAnswersTheZeroStart := by
  rintro s t v small h answered ⟨ts, counter⟩
  have ids : genIds t.answers = v :: genIds s.answers := by rw [answered]; rfl
  rcases step_produces h with ⟨-, unchanged⟩ | ⟨next, added⟩
  · exact List.cons_ne_self _ _ (ids.symm.trans unchanged)
  · obtain ⟨rfl, -⟩ := List.cons.inj (ids.symm.trans added)
    rw [getTs_genId] at ts
    rw [genId_counter] at counter
    exact next.not_zero ⟨lastMs_eq_zero_of_ts (step_smallClock small h).lastMs ts, counter⟩

end Sys2Proof.Machine
end

section
/-! PROOFS. The whole block: what each request is answered, the frame of a step, reset, the invariant and runs
(10_state.md, 20_memory.md section 4, 60_exceptions.md, 70_reset_and_hazards.md): O43, O45 to O55. -/

namespace Sys2Proof.Machine

/-! The response of every operation but GEN. -/

/-- What a request that is no GEN is answered under the parameters `c` (R21, R50). -/
def pureResponse? (c : Config) : Instr → Option Response
  | .prf k0 k1 msg => some (.prf (prf msg k0 k1))
  | .enc k0 k1 id =>
    some (if versionRefused c.versionCheck verSortable (getVer id) then .error .unexpectedVersionError
      else .id (xf id k0 k1 verFacade))
  | .dec k0 k1 id =>
    some (if versionRefused c.versionCheck verFacade (getVer id) then .error .unexpectedVersionError
      else .id (xf id k0 k1 verSortable))
  | .parse text => some ((parseText text).elim (.error .parseError) .id)
  | .fmt id => some (.text (formatText id))
  | .gen => none
  | .rsvd6 => some (.error .illegalOp)
  | .rsvd7 => some (.error .illegalOp)

theorem pureResponse?_of_ne_gen (c : Config) {i : Instr} (h : i ≠ .gen) : ∃ rsp, pureResponse? c i = some rsp := by
  cases i with
  | gen => exact absurd rfl h
  | _ => exact ⟨_, rfl⟩

/-- Of the operations with a response of this kind ENC and DEC alone read the parameters (R123). -/
theorem pureResponse?_congr_config (c c' : Config) {i : Instr} (enc : ∀ k0 k1 id, i ≠ .enc k0 k1 id)
    (dec : ∀ k0 k1 id, i ≠ .dec k0 k1 id) : pureResponse? c i = pureResponse? c' i := by
  cases i with
  | enc k0 k1 id => exact absurd rfl (enc k0 k1 id)
  | dec k0 k1 id => exact absurd rfl (dec k0 k1 id)
  | _ => rfl

/-- An operation with such a response gives it, and changes nothing else. -/
theorem exec_of_pureResponse? {s : State} {i : Instr} {rsp : Response} (h : pureResponse? s.cfg i = some rsp) :
    exec i s = .next (s.respond i.opcode rsp) := by
  cases i with
  | gen => exact absurd h nofun
  | enc k0 k1 id =>
    obtain rfl := Option.some.inj h
    exact respond_ite
  | dec k0 k1 id =>
    obtain rfl := Option.some.inj h
    exact respond_ite
  | parse text =>
    obtain rfl := Option.some.inj h
    cases spelt : parseText text with
    | none => exact exec_parse_of_rejected s spelt
    | some id => exact exec_parse_of_parseText s spelt
  | _ =>
    obtain rfl := Option.some.inj h
    rfl

/-- The response of such an operation is sound (R66, R67, R190 to R198). -/
theorem pureResponse?_sound {c : Config} {i : Instr} {rsp : Response} (h : pureResponse? c i = some rsp) :
    Answer.sound c { op := i.opcode, rsp := rsp } := by
  cases i with
  | gen => exact absurd h nofun
  | prf k0 k1 msg =>
    obtain rfl := Option.some.inj h
    rfl
  | enc k0 k1 id =>
    obtain rfl := Option.some.inj h
    cases refused : versionRefused c.versionCheck verSortable (getVer id) with
    | true => exact ⟨.inl rfl, versionRefused_checks refused⟩
    | false => exact .inl ⟨rfl, getVer_xf .., getVar_xf ..⟩
  | dec k0 k1 id =>
    obtain rfl := Option.some.inj h
    cases refused : versionRefused c.versionCheck verFacade (getVer id) with
    | true => exact ⟨.inr rfl, versionRefused_checks refused⟩
    | false => exact .inr (.inl ⟨rfl, getVer_xf .., getVar_xf ..⟩)
  | parse text =>
    obtain rfl := Option.some.inj h
    cases parseText text with
    | none => rfl
    | some id => exact .inr (.inr (.inl rfl))
  | fmt id =>
    obtain rfl := Option.some.inj h
    exact ⟨rfl, formatText_length id⟩
  | rsvd6 =>
    obtain rfl := Option.some.inj h
    exact .inl rfl
  | rsvd7 =>
    obtain rfl := Option.some.inj h
    exact .inr rfl

/-- Settles O43: the response is that of `pureResponse?`, which has no state to read. -/
theorem pureResponsesDependOnOperandsAlone : Obligations.PureResponsesDependOnOperandsAlone := by
  constructor
  · intro c i notGen
    obtain ⟨rsp, answered⟩ := pureResponse?_of_ne_gen c notGen
    exact ⟨rsp, fun s cfg => exec_of_pureResponse? (cfg ▸ answered)⟩
  · intro i notEnc notDec notGen
    obtain ⟨rsp, answered⟩ := pureResponse?_of_ne_gen Config.default notGen
    exact ⟨rsp, fun s => exec_of_pureResponse? ((pureResponse?_congr_config s.cfg _ notEnc notDec).trans answered)⟩

/-- Settles O45: both meanings raise the error at once. -/
theorem reservedCodesAnswerIllegalOp : Obligations.ReservedCodesAnswerIllegalOp := fun _ => ⟨rfl, rfl⟩

/-- Each error has a code of its own, from 1 to 4 (R191). -/
theorem errorStatus_bounds (e : ErrorCode) : errorStatus e ≠ 0 ∧ (errorStatus e).toNat < 5 := by
  cases e <;> decide

/-- Settles O47: a payload has status 0 and an error has none. -/
theorem errorResponsesHaveNoPayload : Obligations.ErrorResponsesHaveNoPayload := by
  refine ⟨⟨rfl, rfl, rfl, rfl⟩, fun _ => rfl, fun _ => rfl, fun _ => rfl, fun _ => rfl, fun r => ?_⟩
  cases r with
  | error e =>
    obtain ⟨notOk, code⟩ := errorStatus_bounds e
    exact ⟨fun _ => ⟨rfl, rfl, rfl, e, rfl, code⟩, fun ok => absurd ok notOk⟩
  | _ => exact ⟨fun notOk => absurd rfl notOk, fun _ => rfl⟩

/-! What a step can do to the whole state. -/

/-- A step changes nothing, goes on with a GEN (one held, or one just taken from the queue), or takes another request
and gives its response. -/
theorem step_effect_cases {s t : State} (h : step s = .next t) :
    t = s ∨
    (∃ rs, (rs = s.requests ∨ ∃ r, s.requests = r :: rs) ∧ { s with requests := rs }.GenGoesOn t) ∨
    ∃ r rest i rsp, s.requests = r :: rest ∧ pureResponse? s.cfg i = some rsp ∧
      t = { s with requests := rest }.respond i.opcode rsp := by
  rcases step_cases h with ⟨-, look⟩ | ⟨_, -, look⟩ | ⟨-, -, same⟩ | ⟨-, r, rest, i, issued, -, run⟩
  · exact .inr (.inl ⟨s.requests, .inl rfl, genLook_goesOn look⟩)
  · exact .inr (.inl ⟨s.requests, .inl rfl, genWith_goesOn look⟩)
  · exact .inl same
  · by_cases hi : i = .gen
    · subst hi
      exact .inr (.inl ⟨rest, .inr ⟨r, issued⟩, genLook_goesOn run⟩)
    · obtain ⟨rsp, answered⟩ := pureResponse?_of_ne_gen s.cfg hi
      have ran := exec_of_pureResponse? (s := { s with requests := rest }) answered
      exact .inr (.inr ⟨r, rest, i, rsp, issued, answered, Host.Outcome.next.inj (run.symm.trans ran)⟩)

/-- Settles O46: in each of the three effects of a step. -/
theorem stepFrame : Obligations.StepFrame := by
  intro s t h
  rcases step_effect_cases h with rfl | ⟨rs, taken, cfg, requests, clock, random, -, outcome⟩ |
    ⟨r, rest, i, rsp, issued, -, rfl⟩
  · exact ⟨rfl, .inl rfl, .inl rfl, .inl rfl, .inl rfl, fun changed => absurd rfl changed⟩
  · obtain rfl : t.requests = rs := requests
    refine ⟨cfg, taken.imp_left id, clock, random, ?_, ?_⟩
    · exact outcome.imp (fun held => held.2.2) fun completed => ⟨_, completed.2⟩
    · rcases outcome with ⟨-, same, -⟩ | ⟨-, answered⟩
      · exact fun changed => absurd same changed
      · exact fun _ => answered
  · exact ⟨rfl, .inr ⟨r, issued⟩, .inl rfl, .inl rfl, .inr ⟨_, rfl⟩, fun changed => absurd rfl changed⟩

/-- GEN's answer is sound (R66, R67). -/
theorem gen_answer_sound (c : Config) (g : GenState) : Answer.sound c { op := 0b101#3, rsp := .id (genId g) } :=
  .inr (.inr (.inr ⟨rfl, getVer_genId g, getVar_genId g⟩))

/-- Settles O48: whatever a step adds is GEN's answer or the response of another operation. -/
theorem answersStaySound : Obligations.AnswersStaySound := by
  intro s t sound h
  rcases step_effect_cases h with rfl | ⟨rs, -, goesOn⟩ | ⟨r, rest, i, rsp, -, answered, rfl⟩
  · exact sound
  · rw [goesOn.cfg]
    rcases goesOn.outcome with ⟨-, -, same⟩ | ⟨-, added⟩
    · rwa [same]
    · rw [added]
      exact List.forall_mem_cons.mpr ⟨gen_answer_sound _ _, sound⟩
  · exact List.forall_mem_cons.mpr ⟨pureResponse?_sound answered, sound⟩

/-! Reset and the invariant. -/

/-- Settles O49: the reset state is a literal. -/
theorem resetLeavesGZero : Obligations.ResetLeavesGZero := ⟨rfl, rfl, rfl, rfl, rfl, rfl, rfl, rfl⟩

/-- Settles O50: the move writes `G` and the port, and `GenState.reset` is the three zeros. -/
theorem resetMoveWritesGAlone : Obligations.ResetMoveWritesGAlone := fun _ => rfl

theorem inv_resetWith {c : Config} (legal : c.wf = true) : (State.resetWith c).Inv := ⟨legal, nofun, trivial⟩

/-- Settles O51: the defaults are legal, nothing is issued and no GEN is held. -/
theorem invariantHoldsAtReset : Obligations.InvariantHoldsAtReset := ⟨inv_resetWith rfl, fun _ => inv_resetWith⟩

theorem step_keeps_inv {s t : State} (hs : s.Inv) (h : step s = .next t) : t.Inv := by
  obtain ⟨legal, carriable, above⟩ := hs
  rcases step_effect_cases h with rfl | ⟨rs, taken, goesOn⟩ | ⟨r, rest, i, rsp, issued, -, rfl⟩
  · exact ⟨legal, carriable, above⟩
  · have kept : ∀ r ∈ rs, r.carriable s.cfg = true := by
      rcases taken with rfl | ⟨r, issued⟩
      · exact carriable
      · exact (List.forall_mem_cons.mp (issued ▸ carriable)).2
    exact ⟨goesOn.cfg ▸ legal, by rwa [goesOn.requests, goesOn.cfg], goesOn.above⟩
  · exact ⟨legal, (List.forall_mem_cons.mp (issued ▸ carriable)).2, trivial⟩

theorem move_keeps_inv {s t : State} {m : Move} (hs : s.Inv) (h : s.move m = some t) : t.Inv := by
  obtain ⟨legal, carriable, above⟩ := hs
  cases m with
  | issue r =>
    obtain ⟨fits, issued⟩ := Option.ite_none_right_eq_some.mp h
    obtain rfl := Option.some.inj issued
    exact ⟨legal, List.forall_mem_append.mpr ⟨carriable, List.forall_mem_singleton.mpr fits⟩, above⟩
  | reset =>
    obtain rfl := Option.some.inj h
    exact ⟨legal, carriable, trivial⟩
  | _ =>
    obtain rfl := Option.some.inj h
    exact ⟨legal, carriable, above⟩

/-- Settles O52: a step takes requests and adds none, and a GEN it leaves waiting for the random source has found a
clock answer above `last_ms`. -/
theorem invariantIsKeptByEveryStep : Obligations.InvariantIsKeptByEveryStep := fun _ _ => step_keeps_inv

/-- Settles O53: the one move that can be refused is that of a request too long. -/
theorem invariantIsKeptByEveryMove : Obligations.InvariantIsKeptByEveryMove := by
  refine ⟨fun _ _ _ => move_keeps_inv, fun s r n bound long => if_neg fun fits => ?_,
    fun s r bounded => if_pos (fits_iff.mpr bounded), fun _ _ => rfl, fun _ _ => rfl⟩
  exact absurd (fits_iff.mp fits n bound) (Nat.not_le.mpr long)

/-! Runs. -/

/-- The invariant holds in every state a run can reach. -/
theorem Reachable.inv {s : State} (h : Reachable s) : s.Inv := by
  induction h with
  | start c legal => exact inv_resetWith legal
  | step _ h ih => exact step_keeps_inv ih h
  | move m _ h ih => exact move_keeps_inv ih h

/-- Where only requests that can be issued wait, a step has a next state (R196, R201). -/
theorem step_next_of_inv {s : State} (hs : s.Inv) : ∃ t, step s = .next t := by
  cases port : s.port with
  | waitClock => exact step_waitClock port ▸ genLook_next s
  | waitRandom now => exact step_waitRandom port ▸ genWith_next now s
  | idle =>
    cases issued : s.requests with
    | nil => exact ⟨s, step_idle port issued⟩
    | cons r rest =>
      have carriable := hs.requests_carriable r (issued ▸ List.mem_cons_self)
      exact step_request port issued (decode_of_carriable carriable) ▸ exec_next _ _

/-- Settles O54: the invariant holds in the state, and with it the step is not refused. -/
theorem reachableStatesAlwaysStep : Obligations.ReachableStatesAlwaysStep := fun _ reached =>
  step_next_of_inv reached.inv

/-- The answer `a` is what the request `r` gets in every state with the parameters `c`. -/
def Gets (c : Config) (r : Request) (a : Answer) : Prop :=
  ∀ u : State, u.cfg = c → exec r.select u = .next { u with port := .idle, answers := a :: u.answers }

/-- A request that is no GEN has an answer it gets everywhere. -/
theorem gets_of_ne_gen (c : Config) {r : Request} (notGen : r.op ≠ 0b101#3) : ∃ a, Gets c r a := by
  have pure : r.select ≠ .gen := fun isGen => notGen ((opcode_select r).symm.trans (congrArg Instr.opcode isGen))
  obtain ⟨rsp, answered⟩ := pureResponse?_of_ne_gen c pure
  exact ⟨_, fun u cfg => exec_of_pureResponse? (cfg ▸ answered)⟩

/-- A batch without GEN is answered request by request (R53, R223). -/
theorem run_pure_batch {s : State} {rs : List Request} (idle : s.port = .idle) (issued : s.requests = rs)
    (carriable : ∀ r ∈ rs, r.carriable s.cfg = true) (pure : ∀ r ∈ rs, r.op ≠ 0b101#3) :
    ∃ new, List.Forall₂ (Gets s.cfg) rs new ∧
      core.run rs.length s = .next { s with requests := [], answers := new.reverse ++ s.answers } := by
  induction rs generalizing s with
  | nil => exact ⟨[], .nil, by rw [List.length_nil, run_zero, List.reverse_nil, List.nil_append, ← issued]⟩
  | cons r rest ih =>
    obtain ⟨carriableHead, carriableRest⟩ := List.forall_mem_cons.mp carriable
    obtain ⟨pureHead, pureRest⟩ := List.forall_mem_cons.mp pure
    obtain ⟨a, gets⟩ := gets_of_ne_gen s.cfg pureHead
    have first := (step_request idle issued (decode_of_carriable carriableHead)).trans (gets _ rfl)
    obtain ⟨new, getAll, run⟩ :=
      ih (s := { s with port := .idle, requests := rest, answers := a :: s.answers }) rfl rfl carriableRest pureRest
    refine ⟨a :: new, .cons gets getAll, ?_⟩
    rw [List.length_cons, run_succ _ first, run, List.reverse_cons, List.append_assoc, ← idle]
    rfl

/-- Settles O55: every step takes the next request and answers it. -/
theorem pureBatchFinishes : Obligations.PureBatchFinishes := by
  intro s inv idle pure
  obtain ⟨new, gets, run⟩ := run_pure_batch idle rfl inv.requests_carriable pure
  exact ⟨new, gets, run, rfl, idle⟩

end Sys2Proof.Machine
end
